-- ==== Sys2Proof/Word.lean ====
section
/-! DEFINITION. Word.lean: the widths of the machine (00_scope.md R7 to R9). Every value is an unsigned
integer of a stated width. -/

namespace Sys2Proof

/-- An 8-bit value: a general register, a timer, a memory byte, an immediate `nn`. -/
abbrev Byte := BitVec 8

/-- A 16-bit value: an instruction word, `pc`, `I`, a stack frame. -/
abbrev Word := BitVec 16

/-- A 4-bit field of a word (R8): a register number, a key number, the immediate `n`. -/
abbrev Nibble := BitVec 4

/-- The 12-bit address immediate `nnn` (R91). -/
abbrev Imm12 := BitVec 12

end Sys2Proof
end

