-- ==== Sys2Proof/Config.lean ====
section
/-! DEFINITION. Config.lean: the named parameters of the machine (00_scope.md R7; 93_implementation_defined.md
U1 to U7) and the values the spec leaves open (treatment `any value`: U8, U10, U12). Their decided
defaults are in Machine/Defaults.lean. -/

namespace Sys2Proof

/-- OPCODE_MAP: the numbers of the 34 instructions (30_encoding.md R96, R97, U1, D1), by the place R94's dispatch reads
them from. The decoder, the encoder and the rows of R96 read every number here (log entry 1). -/
structure OpcodeMap where
  /-- The two exact words (R94 step 1). -/
  cls : Word
  ret : Word
  /-- The values of `op` (R94 step 2), the arithmetic/logical group and the two I/O groups among them. -/
  jp : Nibble
  call : Nibble
  seImm : Nibble
  sneImm : Nibble
  seReg : Nibble
  ldImm : Nibble
  addImm : Nibble
  alu : Nibble
  sneReg : Nibble
  ldI : Nibble
  jpV0 : Nibble
  rnd : Nibble
  drw : Nibble
  key : Nibble
  misc : Nibble
  /-- The values of `n` in the arithmetic/logical group (R94 step 3). -/
  ldReg : Nibble
  or : Nibble
  and : Nibble
  xor : Nibble
  addReg : Nibble
  sub : Nibble
  shr : Nibble
  subn : Nibble
  shl : Nibble
  /-- The values of `nn` in the key group (R94 step 3). -/
  skp : Byte
  sknp : Byte
  /-- The values of `nn` in the timer, key-wait, index and memory group (R94 step 3). -/
  ldVxDt : Byte
  ldVxK : Byte
  ldDtVx : Byte
  ldStVx : Byte
  addI : Byte
  ldF : Byte
  ldB : Byte
  storeRegs : Byte
  loadRegs : Byte
  deriving DecidableEq, Repr

/-- The parameters the spec names (R7). -/
structure Config where
  /-- STACK_DEPTH: the capacity of the call stack in frames (10_state.md R32, D5). -/
  stackDepth : Nat
  /-- FONT_OFFSET: the address of the font table (10_state.md R44, D6). -/
  fontOffset : Nat
  /-- FONT_STRIDE: the factor of the font-character-address formula (42_index_and_memory.md R182, D7). -/
  fontStride : Nat
  /-- FONT_TABLE: 16 glyphs of 5 bytes (10_state.md R45, D8). -/
  fontTable : Vector Byte 80
  /-- FETCH_BIG_ENDIAN: the byte at the lower address is the high half (20_memory.md R62, D2). -/
  fetchBigEndian : Bool
  /-- STRICT_LOW_NIBBLE: 5xyN and 9xyN with N other than 0 are illegal (30_encoding.md R98, D3). -/
  strictLowNibble : Bool
  /-- OPCODE_MAP: the opcode numbers (30_encoding.md R96, R97, D1). -/
  opcodeMap : OpcodeMap
  deriving DecidableEq, Repr

/-- The value of `pc` after a fault: unspecified (60_exceptions.md R249, U8), one free value per draw. -/
opaque Config.freePc : Nat → Word

/-- The random byte of an unscheduled `Step`: any value (10_state.md R50, U10). -/
opaque Config.freeRnd : Nat → Byte

/-- The sixteen held bits of an unscheduled `Step`: any value (10_state.md R49, U12). -/
opaque Config.freeKeyHeld : Nat → BitVec 16

/-- The most recently pressed key of an unscheduled `Step`, before the latch constraint of R49. -/
opaque Config.freeLastKey : Nat → Option Nibble

end Sys2Proof
end

