-- ==== Sys2Proof/Machine/Defaults.lean ====
section
/-! DEFINITION. Machine/Defaults.lean: the constants the source fixes and the decided default of every named
parameter (00_scope.md R7). -/

namespace Sys2Proof.Machine

/-- MEM_SIZE (R7, 10_state.md R43). -/
def memSize : Nat := 4096

/-- PROGRAM_BASE, where an image is copied (R7, 70_reset_and_hazards.md R280). -/
def programBase : Nat := 512

/-- MAX_IMAGE, the longest image `Reset` accepts (R7, 70_reset_and_hazards.md R280). -/
def maxImage : Nat := 3584

/-- The entry point after reset (10_state.md R52, 70_reset_and_hazards.md R282, D4). -/
def resetPc : Word := 0x0200

/-- The bytes of the default FONT_TABLE (10_state.md R45), one glyph of five rows a line, digit 0 first. PRESUMED by
the spec itself ("from general knowledge, not in source"; log entry 8). -/
def fontBytes : List Byte :=
  [0xF0, 0x90, 0x90, 0x90, 0xF0] ++
  [0x20, 0x60, 0x20, 0x20, 0x70] ++
  [0xF0, 0x10, 0xF0, 0x80, 0xF0] ++
  [0xF0, 0x10, 0xF0, 0x10, 0xF0] ++
  [0x90, 0x90, 0xF0, 0x10, 0x10] ++
  [0xF0, 0x80, 0xF0, 0x10, 0xF0] ++
  [0xF0, 0x80, 0xF0, 0x90, 0xF0] ++
  [0xF0, 0x10, 0x20, 0x40, 0x40] ++
  [0xF0, 0x90, 0xF0, 0x90, 0xF0] ++
  [0xF0, 0x90, 0xF0, 0x10, 0xF0] ++
  [0xF0, 0x90, 0xF0, 0x90, 0x90] ++
  [0xE0, 0x90, 0xE0, 0x90, 0xE0] ++
  [0xF0, 0x80, 0x80, 0x80, 0xF0] ++
  [0xE0, 0x90, 0x90, 0x90, 0xE0] ++
  [0xF0, 0x80, 0xF0, 0x80, 0xF0] ++
  [0xF0, 0x80, 0xF0, 0x80, 0x80]

/-- The default FONT_TABLE as 80 bytes (R45). -/
def defaultFontTable : Vector Byte 80 := ⟨⟨fontBytes⟩, rfl⟩

/-- The default OPCODE_MAP, the customary map (30_encoding.md R96, D1), the one place that holds the numbers (R97).
`cls`, `ldImm` and `ldI` are the source's; the rest is PRESUMED by the spec itself (log entry 1). -/
def defaultOpcodeMap : OpcodeMap where
  cls := 0x00E0
  ret := 0x00EE
  jp := 0x1
  call := 0x2
  seImm := 0x3
  sneImm := 0x4
  seReg := 0x5
  ldImm := 0x6
  addImm := 0x7
  alu := 0x8
  sneReg := 0x9
  ldI := 0xA
  jpV0 := 0xB
  rnd := 0xC
  drw := 0xD
  key := 0xE
  misc := 0xF
  ldReg := 0x0
  or := 0x1
  and := 0x2
  xor := 0x3
  addReg := 0x4
  sub := 0x5
  shr := 0x6
  subn := 0x7
  shl := 0xE
  skp := 0x9E
  sknp := 0xA1
  ldVxDt := 0x07
  ldVxK := 0x0A
  ldDtVx := 0x15
  ldStVx := 0x18
  addI := 0x1E
  ldF := 0x29
  ldB := 0x33
  storeRegs := 0x55
  loadRegs := 0x65

/-- The values of `op` a map uses. -/
def opNumbers (m : OpcodeMap) : List Nibble :=
  [m.jp, m.call, m.seImm, m.sneImm, m.seReg, m.ldImm, m.addImm, m.alu, m.sneReg, m.ldI, m.jpV0, m.rnd,
    m.drw, m.key, m.misc]

/-- The values of `n` a map uses in the arithmetic/logical group. -/
def aluNumbers (m : OpcodeMap) : List Nibble :=
  [m.ldReg, m.or, m.and, m.xor, m.addReg, m.sub, m.shr, m.subn, m.shl]

/-- The values of `nn` a map uses in the timer, key-wait, index and memory group. -/
def miscNumbers (m : OpcodeMap) : List Byte :=
  [m.ldVxDt, m.ldVxK, m.ldDtVx, m.ldStVx, m.addI, m.ldF, m.ldB, m.storeRegs, m.loadRegs]

/-- The opcode maps the model accepts: the three numbers the source pins (30_encoding.md R97 (a) to (c)), two exact
words with `op = 0` and no other instruction there (R94), and no number used twice in a group, so that the rows are
pairwise disjoint (R95; log entry 1). -/
def validOpcodeMap (m : OpcodeMap) : Bool :=
  m.cls == 0x00E0 && m.ldImm == 0x6 && m.ldI == 0xA &&
  m.ret.extractLsb' 12 4 == 0 && m.ret != m.cls && decide (0 ∉ opNumbers m) && decide (opNumbers m).Nodup &&
  decide (aluNumbers m).Nodup && m.skp != m.sknp && decide (miscNumbers m).Nodup

/-- The decided values of the named parameters (R7; D1 to D3, D5 to D8; log entries 1 to 3, 5 to 8). -/
def defaultConfig : Config where
  stackDepth := 16
  fontOffset := 80
  fontStride := 1
  fontTable := defaultFontTable
  fetchBigEndian := true
  strictLowNibble := false
  opcodeMap := defaultOpcodeMap

/-- The parameter values the model accepts: the font lies below the program region (U6: "a model should
refuse other values"), every font address fits 12 bits, which R31 needs, and the opcode map is an accepted one
(log entries 1, 6, 7). -/
def validConfig (c : Config) : Bool :=
  decide (c.fontOffset + 80 ≤ 512) && decide (c.fontOffset + c.fontStride * 15 ≤ 0x0FFF) &&
  validOpcodeMap c.opcodeMap

end Sys2Proof.Machine
end

