-- ==== Sys2Proof/Syntax.lean ====
section
/-! DEFINITION. Syntax.lean: the 34 instructions, one constructor per row of spec/opcode_table.json
(30_encoding.md R96), named after R103's tags. -/

namespace Sys2Proof

/-- A decoded instruction (R103). `x` and `y` are register numbers, `nn`, `nnn` and `n` immediates (R91).
`ign` is the nibble a row's encoding holds and its meaning ignores (R98); with it an instruction
determines its raw word (log entry 21). -/
inductive Instr where
  /-- 00E0 CLS (R200) -/
  | cls
  /-- 00EE RET (R123) -/
  | ret
  /-- 1nnn JP nnn (R124) -/
  | jp (nnn : Imm12)
  /-- 2nnn CALL nnn (R125) -/
  | call (nnn : Imm12)
  /-- 3xnn SE Vx, nn (R126) -/
  | seImm (x : Nibble) (nn : Byte)
  /-- 4xnn SNE Vx, nn (R127) -/
  | sneImm (x : Nibble) (nn : Byte)
  /-- 5xy_ SE Vx, Vy (R128) -/
  | seReg (x y ign : Nibble)
  /-- 6xnn LD Vx, nn (R150) -/
  | ldImm (x : Nibble) (nn : Byte)
  /-- 7xnn ADD Vx, nn (R151) -/
  | addImm (x : Nibble) (nn : Byte)
  /-- 8xy0 LD Vx, Vy (R153) -/
  | ldReg (x y : Nibble)
  /-- 8xy1 OR Vx, Vy (R154) -/
  | or (x y : Nibble)
  /-- 8xy2 AND Vx, Vy (R155) -/
  | and (x y : Nibble)
  /-- 8xy3 XOR Vx, Vy (R156) -/
  | xor (x y : Nibble)
  /-- 8xy4 ADD Vx, Vy (R157) -/
  | addReg (x y : Nibble)
  /-- 8xy5 SUB Vx, Vy (R158) -/
  | sub (x y : Nibble)
  /-- 8x_6 SHR Vx (R160) -/
  | shr (x ign : Nibble)
  /-- 8xy7 SUBN Vx, Vy (R161) -/
  | subn (x y : Nibble)
  /-- 8x_E SHL Vx (R162) -/
  | shl (x ign : Nibble)
  /-- 9xy_ SNE Vx, Vy (R129) -/
  | sneReg (x y ign : Nibble)
  /-- Annn LD I, nnn (R180) -/
  | ldI (nnn : Imm12)
  /-- Bnnn JP V0, nnn (R131) -/
  | jpV0 (nnn : Imm12)
  /-- Cxnn RND Vx, nn (R163) -/
  | rnd (x : Nibble) (nn : Byte)
  /-- Dxyn DRW Vx, Vy, n (R201) -/
  | drw (x y n : Nibble)
  /-- Ex9E SKP Vx (R220) -/
  | skp (x : Nibble)
  /-- ExA1 SKNP Vx (R221) -/
  | sknp (x : Nibble)
  /-- Fx07 LD Vx, DT (R223) -/
  | ldVxDt (x : Nibble)
  /-- Fx0A LD Vx, K (R222) -/
  | ldVxK (x : Nibble)
  /-- Fx15 LD DT, Vx (R224) -/
  | ldDtVx (x : Nibble)
  /-- Fx18 LD ST, Vx (R225) -/
  | ldStVx (x : Nibble)
  /-- Fx1E ADD I, Vx (R181) -/
  | addI (x : Nibble)
  /-- Fx29 LD F, Vx (R182) -/
  | ldF (x : Nibble)
  /-- Fx33 LD B, Vx (R183) -/
  | ldB (x : Nibble)
  /-- Fx55 LD [I], Vx (R184) -/
  | storeRegs (x : Nibble)
  /-- Fx65 LD Vx, [I] (R185) -/
  | loadRegs (x : Nibble)
  deriving DecidableEq, Repr

end Sys2Proof
end

