-- ==== Sys2Proof/WellFormed.lean ====
section
/-! DEFINITION. WellFormed.lean: which instructions have a legal word. Operand ranges are the fields' widths
(30_encoding.md R91), so the one check left is STRICT_LOW_NIBBLE (R98). -/

namespace Sys2Proof

/-- The canonical spelling check on a don't-care nibble (R98): with STRICT_LOW_NIBBLE it must be 0. -/
def ignOk (strict : Bool) (ign : Nibble) : Bool :=
  !strict || ign == 0

/-- `i` has a legal word under the setting `strict` of STRICT_LOW_NIBBLE. Only rows 7 and 19 depend on
it: the `y` field of the two shifts is ignored in both settings (R98, U3). -/
def Instr.wf (strict : Bool) : Instr → Bool
  | .cls => true
  | .ret => true
  | .jp _ => true
  | .call _ => true
  | .seImm _ _ => true
  | .sneImm _ _ => true
  | .seReg _ _ ign => ignOk strict ign
  | .ldImm _ _ => true
  | .addImm _ _ => true
  | .ldReg _ _ => true
  | .or _ _ => true
  | .and _ _ => true
  | .xor _ _ => true
  | .addReg _ _ => true
  | .sub _ _ => true
  | .shr _ _ => true
  | .subn _ _ => true
  | .shl _ _ => true
  | .sneReg _ _ ign => ignOk strict ign
  | .ldI _ => true
  | .jpV0 _ => true
  | .rnd _ _ => true
  | .drw _ _ _ => true
  | .skp _ => true
  | .sknp _ => true
  | .ldVxDt _ => true
  | .ldVxK _ => true
  | .ldDtVx _ => true
  | .ldStVx _ => true
  | .addI _ => true
  | .ldF _ => true
  | .ldB _ => true
  | .storeRegs _ => true
  | .loadRegs _ => true

end Sys2Proof
end

