-- ==== Sys2Proof/Decode.lean ====
section
/-! DEFINITION. Decode.lean: fields of a word (30_encoding.md R91), the decoder (R94), the encoder over the
formats of R92 and the rows of R96, all under an opcode map (R97). -/

namespace Sys2Proof

/-! ### Fields (R91) -/

/-- The primary opcode, `w[15:12]`. -/
def fieldOp (w : Word) : Nibble := w.extractLsb' 12 4

/-- `x`, `w[11:8]`. -/
def fieldX (w : Word) : Nibble := w.extractLsb' 8 4

/-- `y`, `w[7:4]`. -/
def fieldY (w : Word) : Nibble := w.extractLsb' 4 4

/-- `n`, `w[3:0]`. -/
def fieldN (w : Word) : Nibble := w.extractLsb' 0 4

/-- `nn`, `w[7:0]`. -/
def fieldNN (w : Word) : Byte := w.extractLsb' 0 8

/-- `nnn`, `w[11:0]`. -/
def fieldNNN (w : Word) : Imm12 := w.extractLsb' 0 12

/-! ### The decoder (R94) -/

/-- What `Decode` answers: an instruction, or `InvalidOpcode` (R95). -/
inductive Decoded where
  | instr (i : Instr)
  | invalidOpcode
  deriving DecidableEq, Repr

/-- The first row whose number is `key`; `InvalidOpcode` if there is none (R94 step 4). -/
def dispatch {α : Type} [DecidableEq α] (key : α) : List (α × Decoded) → Decoded
  | [] => .invalidOpcode
  | (number, d) :: rows => if number = key then d else dispatch key rows

/-- The register skips: under STRICT_LOW_NIBBLE a nonzero low nibble is illegal (R98). -/
def decodeSkip (strict : Bool) (n : Nibble) (i : Instr) : Decoded :=
  if ignOk strict n then .instr i else .invalidOpcode

/-- The arithmetic/logical group: dispatch on `n` (R94 step 3, R96 rows 10 to 18). -/
def decodeAlu (m : OpcodeMap) (x y n : Nibble) : Decoded :=
  dispatch n
    [(m.ldReg, .instr (.ldReg x y)),
     (m.or, .instr (.or x y)),
     (m.and, .instr (.and x y)),
     (m.xor, .instr (.xor x y)),
     (m.addReg, .instr (.addReg x y)),
     (m.sub, .instr (.sub x y)),
     (m.shr, .instr (.shr x y)),
     (m.subn, .instr (.subn x y)),
     (m.shl, .instr (.shl x y))]

/-- The key group: dispatch on `nn` (R94 step 3, R96 rows 24 and 25). -/
def decodeKey (m : OpcodeMap) (x : Nibble) (nn : Byte) : Decoded :=
  dispatch nn
    [(m.skp, .instr (.skp x)),
     (m.sknp, .instr (.sknp x))]

/-- The timer, key-wait, index and memory group: dispatch on `nn` (R94 step 3, R96 rows 26 to 34). -/
def decodeMisc (m : OpcodeMap) (x : Nibble) (nn : Byte) : Decoded :=
  dispatch nn
    [(m.ldVxDt, .instr (.ldVxDt x)),
     (m.ldVxK, .instr (.ldVxK x)),
     (m.ldDtVx, .instr (.ldDtVx x)),
     (m.ldStVx, .instr (.ldStVx x)),
     (m.addI, .instr (.addI x)),
     (m.ldF, .instr (.ldF x)),
     (m.ldB, .instr (.ldB x)),
     (m.storeRegs, .instr (.storeRegs x)),
     (m.loadRegs, .instr (.loadRegs x))]

/-- Classification by the top nibble (R94 steps 2 and 3). -/
def decodeOp (m : OpcodeMap) (strict : Bool) (w : Word) : Decoded :=
  dispatch (fieldOp w)
    [(m.jp, .instr (.jp (fieldNNN w))),
     (m.call, .instr (.call (fieldNNN w))),
     (m.seImm, .instr (.seImm (fieldX w) (fieldNN w))),
     (m.sneImm, .instr (.sneImm (fieldX w) (fieldNN w))),
     (m.seReg, decodeSkip strict (fieldN w) (.seReg (fieldX w) (fieldY w) (fieldN w))),
     (m.ldImm, .instr (.ldImm (fieldX w) (fieldNN w))),
     (m.addImm, .instr (.addImm (fieldX w) (fieldNN w))),
     (m.alu, decodeAlu m (fieldX w) (fieldY w) (fieldN w)),
     (m.sneReg, decodeSkip strict (fieldN w) (.sneReg (fieldX w) (fieldY w) (fieldN w))),
     (m.ldI, .instr (.ldI (fieldNNN w))),
     (m.jpV0, .instr (.jpV0 (fieldNNN w))),
     (m.rnd, .instr (.rnd (fieldX w) (fieldNN w))),
     (m.drw, .instr (.drw (fieldX w) (fieldY w) (fieldN w))),
     (m.key, decodeKey m (fieldX w) (fieldNN w)),
     (m.misc, decodeMisc m (fieldX w) (fieldNN w))]

/-- `Decode` (R94, R95) under the map `m`: the exact words first, then the top nibble; total on the 65536 words. -/
def decode (m : OpcodeMap) (strict : Bool) (w : Word) : Decoded :=
  if w = m.cls then .instr .cls
  else if w = m.ret then .instr .ret
  else decodeOp m strict w

/-! ### Bytes (20_memory.md R62) -/

/-- The word of two consecutive bytes, the first at the lower address (R62; FETCH_BIG_ENDIAN, D2). -/
def wordOfBytes (bigEndian : Bool) (b0 b1 : Byte) : Word :=
  if bigEndian then b0 ++ b1 else b1 ++ b0

/-- The byte of `w` at the lower address, as R62 reads it back. -/
def byte0OfWord (bigEndian : Bool) (w : Word) : Byte :=
  if bigEndian then w.extractLsb' 8 8 else w.extractLsb' 0 8

/-- The byte of `w` at the higher address, as R62 reads it back. -/
def byte1OfWord (bigEndian : Bool) (w : Word) : Byte :=
  if bigEndian then w.extractLsb' 0 8 else w.extractLsb' 8 8

/-- What decoding a byte sequence answers: an instruction with the bytes after it, or the reason there is
none, by name. -/
inductive DecodedBytes where
  | instr (i : Instr) (rest : List Byte)
  | invalidOpcode (w : Word) (rest : List Byte)
  | tooFewBytes
  deriving DecidableEq, Repr

/-- Decoding any bytes: every instruction is one word of two bytes (R90). -/
def decodeBytes (m : OpcodeMap) (bigEndian strict : Bool) : List Byte → DecodedBytes
  | b0 :: b1 :: rest =>
    match decode m strict (wordOfBytes bigEndian b0 b1) with
    | .instr i => .instr i rest
    | .invalidOpcode => .invalidOpcode (wordOfBytes bigEndian b0 b1) rest
  | _ => .tooFewBytes

/-! ### The encoder (R92 formats, R96 rows) -/

/-- Format NNN: `op nnn`. -/
def formatNNN (op : Nibble) (nnn : Imm12) : Word := op ++ nnn

/-- Format XNN: `op x nn`. -/
def formatXNN (op x : Nibble) (nn : Byte) : Word := op ++ x ++ nn

/-- Formats XYN and XY: `op x y n`, `n` an immediate, a secondary opcode or a don't-care nibble. -/
def formatXYN (op x y n : Nibble) : Word := op ++ x ++ y ++ n

/-- The word of an instruction under the map `m` (R92, R96). -/
def encode (m : OpcodeMap) : Instr → Word
  | .cls => m.cls
  | .ret => m.ret
  | .jp nnn => formatNNN m.jp nnn
  | .call nnn => formatNNN m.call nnn
  | .seImm x nn => formatXNN m.seImm x nn
  | .sneImm x nn => formatXNN m.sneImm x nn
  | .seReg x y ign => formatXYN m.seReg x y ign
  | .ldImm x nn => formatXNN m.ldImm x nn
  | .addImm x nn => formatXNN m.addImm x nn
  | .ldReg x y => formatXYN m.alu x y m.ldReg
  | .or x y => formatXYN m.alu x y m.or
  | .and x y => formatXYN m.alu x y m.and
  | .xor x y => formatXYN m.alu x y m.xor
  | .addReg x y => formatXYN m.alu x y m.addReg
  | .sub x y => formatXYN m.alu x y m.sub
  | .shr x ign => formatXYN m.alu x ign m.shr
  | .subn x y => formatXYN m.alu x y m.subn
  | .shl x ign => formatXYN m.alu x ign m.shl
  | .sneReg x y ign => formatXYN m.sneReg x y ign
  | .ldI nnn => formatNNN m.ldI nnn
  | .jpV0 nnn => formatNNN m.jpV0 nnn
  | .rnd x nn => formatXNN m.rnd x nn
  | .drw x y n => formatXYN m.drw x y n
  | .skp x => formatXNN m.key x m.skp
  | .sknp x => formatXNN m.key x m.sknp
  | .ldVxDt x => formatXNN m.misc x m.ldVxDt
  | .ldVxK x => formatXNN m.misc x m.ldVxK
  | .ldDtVx x => formatXNN m.misc x m.ldDtVx
  | .ldStVx x => formatXNN m.misc x m.ldStVx
  | .addI x => formatXNN m.misc x m.addI
  | .ldF x => formatXNN m.misc x m.ldF
  | .ldB x => formatXNN m.misc x m.ldB
  | .storeRegs x => formatXNN m.misc x m.storeRegs
  | .loadRegs x => formatXNN m.misc x m.loadRegs

/-! ### The rows of R96: `match` and `mask` -/

/-- The row of an exact word. -/
def rowExact (w : Word) : Word × Word := (w, 0xFFFF)

/-- The row of an instruction its `op` alone selects. -/
def rowOp (op : Nibble) : Word × Word := (formatNNN op 0, 0xF000)

/-- The row of a register skip: under STRICT_LOW_NIBBLE its low nibble is examined (R98). -/
def rowSkip (strict : Bool) (op : Nibble) : Word × Word := (formatXYN op 0 0 0, if strict then 0xF00F else 0xF000)

/-- The row of a member of the group dispatched on `n`. -/
def rowN (op n : Nibble) : Word × Word := (formatXYN op 0 0 n, 0xF00F)

/-- The row of a member of a group dispatched on `nn`. -/
def rowNN (op : Nibble) (nn : Byte) : Word × Word := (formatXNN op 0 nn, 0xF0FF)

/-- `match` and `mask` of the 34 rows in R96's order under the map `m`; a word `w` selects a row iff
`w AND mask = match`. -/
def opcodeRows (m : OpcodeMap) (strict : Bool) : List (Word × Word) :=
  [rowExact m.cls, rowExact m.ret, rowOp m.jp, rowOp m.call, rowOp m.seImm, rowOp m.sneImm, rowSkip strict m.seReg,
    rowOp m.ldImm, rowOp m.addImm] ++
  [rowN m.alu m.ldReg, rowN m.alu m.or, rowN m.alu m.and, rowN m.alu m.xor, rowN m.alu m.addReg, rowN m.alu m.sub,
    rowN m.alu m.shr, rowN m.alu m.subn, rowN m.alu m.shl] ++
  [rowSkip strict m.sneReg, rowOp m.ldI, rowOp m.jpV0, rowOp m.rnd, rowOp m.drw, rowNN m.key m.skp, rowNN m.key m.sknp] ++
  [rowNN m.misc m.ldVxDt, rowNN m.misc m.ldVxK, rowNN m.misc m.ldDtVx, rowNN m.misc m.ldStVx, rowNN m.misc m.addI,
    rowNN m.misc m.ldF, rowNN m.misc m.ldB, rowNN m.misc m.storeRegs, rowNN m.misc m.loadRegs]

/-- The number of the row of R96 an instruction belongs to (its column `#`). -/
def rowNumber : Instr → Nat
  | .cls => 1
  | .ret => 2
  | .jp _ => 3
  | .call _ => 4
  | .seImm _ _ => 5
  | .sneImm _ _ => 6
  | .seReg _ _ _ => 7
  | .ldImm _ _ => 8
  | .addImm _ _ => 9
  | .ldReg _ _ => 10
  | .or _ _ => 11
  | .and _ _ => 12
  | .xor _ _ => 13
  | .addReg _ _ => 14
  | .sub _ _ => 15
  | .shr _ _ => 16
  | .subn _ _ => 17
  | .shl _ _ => 18
  | .sneReg _ _ _ => 19
  | .ldI _ => 20
  | .jpV0 _ => 21
  | .rnd _ _ => 22
  | .drw _ _ _ => 23
  | .skp _ => 24
  | .sknp _ => 25
  | .ldVxDt _ => 26
  | .ldVxK _ => 27
  | .ldDtVx _ => 28
  | .ldStVx _ => 29
  | .addI _ => 30
  | .ldF _ => 31
  | .ldB _ => 32
  | .storeRegs _ => 33
  | .loadRegs _ => 34

/-- `match` and `mask` of the row of `i`. -/
def rowOf (m : OpcodeMap) (strict : Bool) (i : Instr) : Word × Word :=
  (opcodeRows m strict).getD (rowNumber i - 1) (0, 0)

/-- `w` selects the row `r` (R96). -/
def selects (w : Word) (r : Word × Word) : Bool := w &&& r.2 == r.1

/-! ### The host's question -/

/-- The instruction the decoder reads from a table row's word: laid out as two bytes in fetch order under
the default parameters, and decoded. -/
def decodeTableWord (nbits w : Nat) : Option Instr :=
  let be := Machine.defaultConfig.fetchBigEndian
  let word := BitVec.ofNat 16 (w % 2 ^ nbits)
  match decodeBytes Machine.defaultOpcodeMap be Machine.defaultConfig.strictLowNibble
      [byte0OfWord be word, byte1OfWord be word] with
  | .instr i _ => some i
  | .invalidOpcode _ _ => none
  | .tooFewBytes => none

end Sys2Proof
end

