-- ==== Sys2Proof/Machine/State.lean ====
section
/-! DEFINITION. Machine/State.lean: the state of the machine as plain data (10_state.md), the fault record, the
environment's events, the reasons the model stops, and the state after reset (R52). -/

namespace Sys2Proof.Machine

/-- The display buffer, `display[row][col]`, 32 rows of 64 pixels, row 0 the top, column 0 the left
(10_state.md R47). -/
abbrev Display := Vector (Vector Bool 64) 32

/-- Every pixel false. -/
def Display.blank : Display := Vector.replicate 32 (Vector.replicate 64 false)

/-- Memory as (address, byte) pairs in one canonical form; an unlisted address reads as its reset content
(Ops.lean: `background`; log entry 18). -/
abbrev Memory := List Host.Cell

/-- The four fatal conditions (60_exceptions.md R240). -/
inductive Cause where
  | invalidOpcode
  | stackOverflow
  | stackUnderflow
  | memoryFault
  deriving DecidableEq, Repr

/-- The cause codes (R240, D16). -/
def Cause.code : Cause → Nat
  | .invalidOpcode => 1
  | .stackOverflow => 2
  | .stackUnderflow => 3
  | .memoryFault => 4

/-- The fault record `(cause, addr, word)` (R245): the address the step fetched from, and the fetched word,
or none where the fetch itself faulted. -/
structure FaultRecord where
  cause : Cause
  addr : Word
  word : Option Word
  deriving DecidableEq, Repr

/-- The inputs sampled by one `Step` (00_scope.md R6, 10_state.md R49, R50): bit `k` of `keyHeld` is
`key_held[k]`. -/
structure StepInputs where
  rnd : Byte
  keyHeld : BitVec 16
  lastKey : Option Nibble
  deriving DecidableEq, Repr

/-- The environment's atomic events (00_scope.md R6). -/
inductive Event where
  /-- `Reset(image)` (70_reset_and_hazards.md R280) -/
  | reset (image : List Byte)
  /-- `Step(rnd, key_held, last_key)` (40_cycle_and_control_flow.md R120) -/
  | step (inputs : StepInputs)
  /-- `Tick` (60_exceptions.md R262) -/
  | tick
  /-- `DisplayConsumed` (43_display.md R203) -/
  | displayConsumed
  deriving DecidableEq, Repr

/-- The reasons a step of the model stops with a fault. A fatal condition of R240 is none of them: taking
it is a next state (`State.raise`). -/
inductive Fault where
  /-- Raised by `step` (Event.lean) in the halted state when the environment has scheduled nothing: no step
  is enabled (60_exceptions.md R250, U13 `stuck`). It reports the record. Safe (log entry 14). -/
  | engineHalted (record : Option FaultRecord)
  deriving DecidableEq, Repr

/-- The reasons a step of the model is refused. No instruction's meaning answers one. -/
inductive Refusal where
  /-- An instruction without a meaning; no arm of exec answers it. Safe. -/
  | notModelled (mnemonic : String)
  /-- Raised by `Reset` for an image longer than 3584 bytes (70_reset_and_hazards.md R280, U15). Safe. -/
  | imageTooLong (length : Nat)
  /-- Raised by `Reset` for parameter values the model does not accept (`validConfig`, U6). Safe. -/
  | unsupportedConfig
  /-- Raised by `Tick` in the halted state: not modelled by the spec (60_exceptions.md R250, U14). Safe. -/
  | tickWhileHalted
  /-- Raised by `DisplayConsumed` in the halted state: not modelled by the spec (R250, U14). Safe. -/
  | displayConsumedWhileHalted
  deriving DecidableEq, Repr

/-- The whole state (10_state.md, summary table), the inputs of the current step, the parameters, and the
model's own two fields. -/
structure State where
  /-- V0..VF (R20); V[15] is VF. -/
  V : Vector Byte 16
  /-- The program counter (R24). -/
  pc : Word
  /-- The index register (R30). -/
  I : Word
  /-- The live frames of the call stack, the most recent first (R32, R33; log entry 4). -/
  stack : List Word
  /-- The delay timer (R34). -/
  DT : Byte
  /-- The sound timer (R35). -/
  ST : Byte
  /-- The 4096 bytes of memory (R43). -/
  mem : Memory
  /-- The display buffer (R47). -/
  display : Display
  /-- The display's "changed since last consumed" flag (R48). -/
  changed : Bool
  /-- The engine has taken a fatal condition (R36). -/
  halted : Bool
  /-- The fault record (R36, R245). -/
  fault : Option FaultRecord
  /-- The inputs of the current `Step` (R49, R50; log entry 10). -/
  inputs : StepInputs
  /-- The named parameters (R7; log entry 9). No step writes them. -/
  cfg : Config
  /-- The model's own: the environment's scheduled events, next first (log entry 11). -/
  pending : List Event
  /-- The model's own: how many free values have been drawn (log entries 12, 13). -/
  draws : Nat
  deriving DecidableEq, Repr

/-- The machine right after `Reset` with an empty image (R52, R281): every spec value is R52's, and
`inputs`, `pending`, `draws` are the model's (log entries 10 to 13). -/
def State.reset : State where
  V := Vector.replicate 16 0
  pc := resetPc
  I := 0
  stack := []
  DT := 0
  ST := 0
  mem := []
  display := Display.blank
  changed := false
  halted := false
  fault := none
  inputs := ⟨0, 0, none⟩
  cfg := defaultConfig
  pending := []
  draws := 0

end Sys2Proof.Machine
end

