-- ==== Sys2Proof/Machine/Ops.lean ====
section
/-! DEFINITION. Machine/Ops.lean: the named operations over registers, memory, the stack, the display and
`pc`, taking a fatal condition, and `Reset`. -/

namespace Sys2Proof.Machine

/-! ### Registers (10_state.md R20 to R24, R30, R34, R35) -/

/-- `V[x]` (00_scope.md R10). -/
def State.reg (s : State) (x : Nibble) : Byte := s.V[x.toNat]

/-- `V[x] <- v` (R10). -/
def State.setReg (s : State) (x : Nibble) (v : Byte) : State :=
  { s with V := s.V.set x.toNat v }

/-- `pc <- target` (R10). -/
def State.setPc (s : State) (target : Word) : State := { s with pc := target }

/-- `I <- v` (R30). -/
def State.setI (s : State) (v : Word) : State := { s with I := v }

/-- `DT <- v` (R34). -/
def State.setDT (s : State) (v : Byte) : State := { s with DT := v }

/-- `ST <- v` (R35). -/
def State.setST (s : State) (v : Byte) : State := { s with ST := v }

/-- The call stack becomes `frames` (R32). -/
def State.setStack (s : State) (frames : List Word) : State := { s with stack := frames }

/-- `sp`, the number of live frames (R33). -/
def State.sp (s : State) : Nat := s.stack.length

/-- `stack[k]` for a live frame (R33): frame 0 is the oldest. -/
def State.frame (s : State) (k : Nat) : Option Word := s.stack.reverse[k]?

/-! ### Memory (20_memory.md R60, R61; reset contents 70_reset_and_hazards.md R281) -/

/-- What an unlisted address reads as: the reset content with an empty image, the font table at FONT_OFFSET
and zero elsewhere (R281; log entry 18). -/
def background (c : Config) (a : Nat) : Byte :=
  if c.fontOffset ≤ a ∧ a < c.fontOffset + 80 then c.fontTable[a - c.fontOffset]?.getD 0 else 0

/-- The byte at `a`. -/
def Memory.peek (bg : Nat → Byte) : Memory → Nat → Byte
  | [], a => bg a
  | (b, w) :: m, a => if a = b then w else Memory.peek bg m a

/-- Storing `v` at `a`, keeping the canonical form. -/
def Memory.poke (bg : Nat → Byte) : Memory → Nat → Byte → Memory
  | [], a, v => if v = bg a then [] else [(a, v)]
  | (b, w) :: m, a, v =>
    if a < b then (if v = bg a then (b, w) :: m else (a, v) :: (b, w) :: m)
    else if a = b then (if v = bg a then m else (a, v) :: m)
    else (b, w) :: Memory.poke bg m a v

/-- The canonical form: addresses strictly rising and inside memory, no entry equal to what an unlisted
address reads as. -/
abbrev Memory.wf (bg : Nat → Byte) (m : Memory) : Prop :=
  m.Pairwise (fun c d => c.1 < d.1) ∧ ∀ c ∈ m, c.1 < memSize ∧ c.2 ≠ bg c.1

/-- The byte of `s` at `a`: the model's one read of a byte. -/
def State.byteAt (s : State) (a : Nat) : Byte := Memory.peek (background s.cfg) s.mem a

/-- `mem[a] <- v`, without the range check. -/
def State.setByte (s : State) (a : Nat) (v : Byte) : State :=
  { s with mem := Memory.poke (background s.cfg) s.mem a v }

/-- `MemRead(a, 1)` (R60): none is `raise MemoryFault`. -/
def State.memRead (s : State) (a : Nat) : Option Byte :=
  if a > 4095 then none else some (s.byteAt a)

/-- `MemWrite(a, 1, v)` (R61): none is `raise MemoryFault`. -/
def State.memWrite (s : State) (a : Nat) (v : Byte) : Option State :=
  if a > 4095 then none else some (s.setByte a v)

/-- `mem[B .. B+n-1]`, the range already checked. -/
def State.readBytes (s : State) (B n : Nat) : List Byte :=
  (List.range n).map fun r => s.byteAt (B + r)

/-- The loop of a block store (42_index_and_memory.md R184), `left` registers from number `i` on: the state
reached, and whether the loop ran to its end; at the first address out of range it stops, and earlier
writes stay. -/
def State.blockStore (B : Nat) : (left i : Nat) → (s : State) → State × Bool
  | 0, _, s => (s, true)
  | left + 1, i, s =>
    match s.memWrite (B + i) (s.reg (BitVec.ofNat 4 i)) with
    | none => (s, false)
    | some s' => State.blockStore B left (i + 1) s'

/-- The loop of a block load (42_index_and_memory.md R185), in the same form; earlier loads stay. -/
def State.blockLoad (B : Nat) : (left i : Nat) → (s : State) → State × Bool
  | 0, _, s => (s, true)
  | left + 1, i, s =>
    match s.memRead (B + i) with
    | none => (s, false)
    | some v => State.blockLoad B left (i + 1) (s.setReg (BitVec.ofNat 4 i) v)

/-- The bytes of an image laid from address `a` on, in canonical form (R281's third line). -/
def Memory.ofImage (bg : Nat → Byte) : Nat → List Byte → Memory
  | _, [] => []
  | a, b :: bs => if b = bg a then Memory.ofImage bg (a + 1) bs else (a, b) :: Memory.ofImage bg (a + 1) bs

/-! ### Display (10_state.md R47, R48) -/

/-- `display[r][c]`, false outside the grid. -/
def Display.pixel (d : Display) (r c : Nat) : Bool :=
  if h : r < 32 ∧ c < 64 then (d[r]'h.1)[c]'h.2 else false

/-- `display[r][c] <- v`; nothing outside the grid. -/
def Display.setPixel (d : Display) (r c : Nat) (v : Bool) : Display :=
  if h : r < 32 ∧ c < 64 then d.set r ((d[r]'h.1).set c v h.2) h.1 else d

/-- The display and its `changed` flag. -/
def State.setDisplay (s : State) (d : Display) (changed : Bool) : State :=
  { s with display := d, changed := changed }

/-! ### Skips (40_cycle_and_control_flow.md R130) -/

/-- `Skip(cond)`: `pc <- (pc + 2) mod 65536` if `cond`. -/
def State.skip (s : State) (cond : Bool) : State :=
  if cond then s.setPc (s.pc + 2) else s

/-! ### Taking a fatal condition, and the way out (00_scope.md R12, 60_exceptions.md R245, R248 to R250) -/

/-- `raise cause`: the record is written and the engine halts. `pc` is unspecified afterwards (R249(c)): a
free value (log entry 13). Everything else is as the caller left it. -/
def State.raise (s : State) (cause : Cause) (addr : Word) (word : Option Word) : State :=
  { s with
    fault := some ⟨cause, addr, word⟩
    halted := true
    pc := Config.freePc s.draws
    draws := s.draws + 1 }

/-- `raise cause` inside `Execute(i)`, where `pc` is still `a + 2`: the record holds `a` and the fetched word,
which is the word of `i` (log entry 20). -/
def State.raiseIn (s : State) (i : Instr) (cause : Cause) : State :=
  s.raise cause (s.pc - 2) (some (encode s.cfg.opcodeMap i))

/-- The state `Reset(image)` makes (10_state.md R52, 70_reset_and_hazards.md R281): the only way out of the
halted state (R250). The parameters and the model's own fields stay. -/
def State.reboot (s : State) (image : List Byte) : State :=
  { s with
    V := Vector.replicate 16 0
    pc := resetPc
    I := 0
    stack := []
    DT := 0
    ST := 0
    mem := Memory.ofImage (background s.cfg) programBase image
    display := Display.blank
    changed := false
    halted := false
    fault := none }

end Sys2Proof.Machine
end

