-- ==== Sys2Proof/Machine/Flags.lean ====
section
/-! DEFINITION. Machine/Flags.lean: the flag computations (10_state.md R28, 41_immediate_and_alu.md R159) and
the write order of a flag (R22, R152). -/

namespace Sys2Proof.Machine

/-- VF's register number (R22). -/
def regVF : Nibble := 15

/-- The byte a flag is stored as: 1 or 0. -/
def flagByte (flag : Bool) : Byte := if flag then 1 else 0

/-- Carry out of `vx + vy` (R157). -/
def carryOut (vx vy : Byte) : Bool := decide (vx.toNat + vy.toNat > 255)

/-- NOT borrow of `a - b`: false iff `a < b` (R158, R161). -/
def notBorrow (a b : Byte) : Bool := !decide (a.toNat < b.toNat)

/-- The bit a right shift moves out (R160). -/
def shiftedOutRight (vx : Byte) : Bool := vx.getLsbD 0

/-- The bit a left shift moves out (R162). -/
def shiftedOutLeft (vx : Byte) : Bool := vx.getLsbD 7

/-- `I + v` leaves 16 bits or the 12-bit address space (42_index_and_memory.md R181). -/
def indexOverflow (i : Word) (v : Byte) : Bool :=
  decide (i.toNat + v.toNat > 0xFFFF) || decide (i.toNat + v.toNat > 0x0FFF)

/-- `V[15] <- flag`. -/
def State.setVF (s : State) (flag : Bool) : State := s.setReg regVF (flagByte flag)

/-- The write order of R152: the result to `V[x]`, then the flag to VF. -/
def State.writeWithFlag (s : State) (x : Nibble) (result : Byte) (flag : Bool) : State :=
  (s.setReg x result).setVF flag

end Sys2Proof.Machine
end

