-- ==== Sys2Proof/Machine/Operands.lean ====
section
/-! DEFINITION. Machine/Operands.lean: the operand forms (30_encoding.md R93): immediates, the key and digit a
register names, and the one addressing mode (42_index_and_memory.md R186). Register operands are
`State.reg`. -/

namespace Sys2Proof.Machine

/-- `zext_16(nnn)` (R93). -/
def imm12 (nnn : Imm12) : Word := nnn.setWidth 16

/-- `zext_16(v)` of a register value (00_scope.md R9). -/
def zext16 (v : Byte) : Word := v.setWidth 16

/-- `zext_8` of a key number (44_input_and_timers.md R222). -/
def keyByte (k : Nibble) : Byte := k.setWidth 8

/-- `V[x] AND 0x0F`, the low nibble of a register: a key (44_input_and_timers.md R220) or a hexadecimal digit
(42_index_and_memory.md R182). -/
def State.lowNibble (s : State) (x : Nibble) : Nibble := (s.reg x).setWidth 4

/-- `key_held[V[x] AND 0x0F]` (44_input_and_timers.md R220, R226). -/
def State.keyIsHeld (s : State) (x : Nibble) : Bool := s.inputs.keyHeld.getLsbD (s.lowNibble x).toNat

/-- `B = I AND 0x0FFF`, the base of every data address (20_memory.md R69); `B + k` is formed as a natural
number, without wrap. -/
def State.base (s : State) : Nat := (s.I &&& 0x0FFF).toNat

/-- `FONT_OFFSET + FONT_STRIDE * digit`, as a 16-bit value (42_index_and_memory.md R182). -/
def State.fontAddress (s : State) (digit : Nibble) : Word :=
  BitVec.ofNat 16 (s.cfg.fontOffset + s.cfg.fontStride * digit.toNat)

end Sys2Proof.Machine
end

