-- ==== Sys2Proof/Machine/Control.lean ====
section
/-! DEFINITION. Machine/Control.lean: the control-flow instructions (40_cycle_and_control_flow.md). On entry
`pc` holds `a + 2` (R120). -/

namespace Sys2Proof.Machine

/-- RET (R123). -/
def execRet (s : State) : Host.Outcome State Fault Refusal :=
  .next (match s.stack with
    | [] => s.raiseIn .ret .stackUnderflow
    | f :: frames => (s.setStack frames).setPc f)

/-- JP nnn (R124). -/
def execJp (nnn : Imm12) (s : State) : Host.Outcome State Fault Refusal :=
  .next (s.setPc (imm12 nnn))

/-- CALL nnn (R125): no push past STACK_DEPTH (log entry 19 on states with more frames). -/
def execCall (nnn : Imm12) (s : State) : Host.Outcome State Fault Refusal :=
  .next (if s.cfg.stackDepth ≤ s.sp then s.raiseIn (.call nnn) .stackOverflow
    else (s.setStack (s.pc :: s.stack)).setPc (imm12 nnn))

/-- SE Vx, nn (R126). -/
def execSeImm (x : Nibble) (nn : Byte) (s : State) : Host.Outcome State Fault Refusal :=
  .next (s.skip (s.reg x == nn))

/-- SNE Vx, nn (R127). -/
def execSneImm (x : Nibble) (nn : Byte) (s : State) : Host.Outcome State Fault Refusal :=
  .next (s.skip (s.reg x != nn))

/-- SE Vx, Vy (R128). -/
def execSeReg (x y : Nibble) (s : State) : Host.Outcome State Fault Refusal :=
  .next (s.skip (s.reg x == s.reg y))

/-- SNE Vx, Vy (R129). -/
def execSneReg (x y : Nibble) (s : State) : Host.Outcome State Fault Refusal :=
  .next (s.skip (s.reg x != s.reg y))

/-- JP V0, nnn (R131): 16 bits, not masked to 12. -/
def execJpV0 (nnn : Imm12) (s : State) : Host.Outcome State Fault Refusal :=
  .next (s.setPc (imm12 nnn + zext16 (s.reg 0)))

end Sys2Proof.Machine
end

