-- ==== Sys2Proof/Machine/Display.lean ====
section
/-! DEFINITION. Machine/Display.lean: the display instructions (43_display.md). -/

namespace Sys2Proof.Machine

/-- CLS (R200): `changed` is set always, VF is not written. -/
def execCls (s : State) : Host.Outcome State Fault Refusal :=
  .next (s.setDisplay Display.blank true)

/-- What a draw has done so far: the grid, whether a set pixel was toggled off, whether any pixel was
toggled. -/
structure Drawing where
  display : Display
  collision : Bool
  toggled : Bool
  deriving DecidableEq, Repr

/-- XOR of one pixel with 1 (R201). -/
def Drawing.toggle (d : Drawing) (r c : Nat) : Drawing where
  display := d.display.setPixel r c (!d.display.pixel r c)
  collision := d.collision || d.display.pixel r c
  toggled := true

/-- The eight bits of a sprite byte, bit 7, the leftmost pixel, first (R201, 20_memory.md R63). -/
def spriteBits (b : Byte) : List Bool :=
  [b.getLsbD 7, b.getLsbD 6, b.getLsbD 5, b.getLsbD 4, b.getLsbD 3, b.getLsbD 2, b.getLsbD 1, b.getLsbD 0]

/-- The inner loop of R201 on row `r` from column `c`: a 0 bit touches nothing, the right edge ends the
row. -/
def drawBits (r : Nat) : (c : Nat) → List Bool → Drawing → Drawing
  | _, [], d => d
  | c, bit :: bits, d =>
    if bit = false then drawBits r (c + 1) bits d
    else if c ≥ 64 then d
    else drawBits r (c + 1) bits (d.toggle r c)

/-- The outer loop of R201 from row `r`: the bottom edge ends the draw. -/
def drawRows (px : Nat) : (r : Nat) → List Byte → Drawing → Drawing
  | _, [], d => d
  | r, b :: rows, d =>
    if r ≥ 32 then d
    else drawRows px (r + 1) rows (drawBits r px (spriteBits b) d)

/-- The draw of R201 on the inputs read before any write: start column, start row, sprite bytes. -/
def State.drawSprite (s : State) (px py : Nat) (rows : List Byte) : State :=
  let d := drawRows px py rows ⟨s.display, false, false⟩
  (s.setVF d.collision).setDisplay d.display (s.changed || d.toggled)

/-- DRW Vx, Vy, n (R201): all `n` addresses are checked before any write; `V[x]`, `V[y]`, `I` and the sprite
bytes are read before VF is written. -/
def execDrw (x y n : Nibble) (s : State) : Host.Outcome State Fault Refusal :=
  .next (if n.toNat > 0 ∧ s.base + n.toNat - 1 > 4095 then s.raiseIn (.drw x y n) .memoryFault
    else s.drawSprite ((s.reg x).toNat % 64) ((s.reg y).toNat % 32) (s.readBytes s.base n.toNat))

end Sys2Proof.Machine
end

