-- ==== Sys2Proof/Machine/Index.lean ====
section
/-! DEFINITION. Machine/Index.lean: the index-register and memory instructions (42_index_and_memory.md). -/

namespace Sys2Proof.Machine

/-- LD I, nnn (R180). -/
def execLdI (nnn : Imm12) (s : State) : Host.Outcome State Fault Refusal :=
  .next (s.setI (imm12 nnn))

/-- ADD I, Vx (R181): the sum is taken from the values before any write; VF is written only on overflow. -/
def execAddI (x : Nibble) (s : State) : Host.Outcome State Fault Refusal :=
  let sum := s.I.toNat + (s.reg x).toNat
  .next ((if indexOverflow s.I (s.reg x) then s.setVF true else s).setI (BitVec.ofNat 16 sum &&& 0x0FFF))

/-- LD F, Vx (R182). -/
def execLdF (x : Nibble) (s : State) : Host.Outcome State Fault Refusal :=
  .next (s.setI (s.fontAddress (s.lowNibble x)))

/-- The three decimal digits of `v`, hundreds first (R183). -/
def decimalDigits (v : Byte) : Byte × Byte × Byte :=
  (BitVec.ofNat 8 (v.toNat / 100), BitVec.ofNat 8 (v.toNat / 10 % 10), BitVec.ofNat 8 (v.toNat % 10))

/-- LD B, Vx (R183): the range is checked before any write. -/
def execLdB (x : Nibble) (s : State) : Host.Outcome State Fault Refusal :=
  let d := decimalDigits (s.reg x)
  .next (if s.base + 2 > 4095 then s.raiseIn (.ldB x) .memoryFault
    else ((s.setByte s.base d.1).setByte (s.base + 1) d.2.1).setByte (s.base + 2) d.2.2)

/-- The end of a block operation: complete, or cut short by a `MemoryFault` that keeps what was done (R184,
R185, 60_exceptions.md R249). -/
def finishBlock (i : Instr) (r : State × Bool) : State :=
  if r.2 then r.1 else r.1.raiseIn i .memoryFault

/-- LD [I], Vx (R184). -/
def execStoreRegs (x : Nibble) (s : State) : Host.Outcome State Fault Refusal :=
  .next (finishBlock (.storeRegs x) (State.blockStore s.base (x.toNat + 1) 0 s))

/-- LD Vx, [I] (R185). -/
def execLoadRegs (x : Nibble) (s : State) : Host.Outcome State Fault Refusal :=
  .next (finishBlock (.loadRegs x) (State.blockLoad s.base (x.toNat + 1) 0 s))

end Sys2Proof.Machine
end

