-- ==== Sys2Proof/Machine/Input.lean ====
section
/-! DEFINITION. Machine/Input.lean: the input and timer instructions (44_input_and_timers.md). -/

namespace Sys2Proof.Machine

/-- SKP Vx (R220): reads `key_held` only (R226). -/
def execSkp (x : Nibble) (s : State) : Host.Outcome State Fault Refusal :=
  .next (s.skip (s.keyIsHeld x))

/-- SKNP Vx (R221): reads `key_held` only (R226). -/
def execSknp (x : Nibble) (s : State) : Host.Outcome State Fault Refusal :=
  .next (s.skip (!s.keyIsHeld x))

/-- LD Vx, K (R222): reads `last_key` only (R226); with no key, back to the same instruction. -/
def execLdVxK (x : Nibble) (s : State) : Host.Outcome State Fault Refusal :=
  .next (match s.inputs.lastKey with
    | none => s.setPc (s.pc - 2)
    | some k => s.setReg x (keyByte k))

/-- LD Vx, DT (R223). -/
def execLdVxDt (x : Nibble) (s : State) : Host.Outcome State Fault Refusal :=
  .next (s.setReg x s.DT)

/-- LD DT, Vx (R224). -/
def execLdDtVx (x : Nibble) (s : State) : Host.Outcome State Fault Refusal :=
  .next (s.setDT (s.reg x))

/-- LD ST, Vx (R225). -/
def execLdStVx (x : Nibble) (s : State) : Host.Outcome State Fault Refusal :=
  .next (s.setST (s.reg x))

end Sys2Proof.Machine
end

