-- ==== Sys2Proof/Machine/Cycle.lean ====
section
/-! DEFINITION. Machine/Cycle.lean: the `Step` event, one fetch, decode and execute
(40_cycle_and_control_flow.md R120, R121). -/

namespace Sys2Proof.Machine

/-- `Fetch(pc)` (R121): none is `raise MemoryFault`; the check is on the pair, for any `pc`, even or odd. -/
def State.fetch (s : State) : Option Word :=
  if s.pc.toNat > 4094 then none
  else some (wordOfBytes s.cfg.fetchBigEndian (s.byteAt s.pc.toNat) (s.byteAt (s.pc.toNat + 1)))

/-- `Decode` and `Execute` of the word `w` fetched from `a`, `pc` already advanced (R120). -/
def runWord (a w : Word) (s : State) : Host.Outcome State Fault Refusal :=
  match decode s.cfg.opcodeMap s.cfg.strictLowNibble w with
  | .instr i => exec i s
  | .invalidOpcode => .next (s.raise .invalidOpcode a (some w))

/-- `Step(rnd, key_held, last_key)` (R120): no effect in the halted state; otherwise the inputs are sampled,
the word fetched, `pc` advanced, and the word run. -/
def stepEvent (inputs : StepInputs) (s : State) : Host.Outcome State Fault Refusal :=
  if s.halted then .next s
  else
    match s.fetch with
    | none => .next ({ s with inputs := inputs }.raise .memoryFault s.pc none)
    | some w => runWord s.pc w { s with inputs := inputs, pc := s.pc + 2 }

end Sys2Proof.Machine
end

