-- ==== Sys2Proof/Machine/Event.lean ====
section
/-! DEFINITION. Machine/Event.lean: the environment's events (00_scope.md R6) and which one comes next
(log entries 11, 12). -/

namespace Sys2Proof.Machine

/-- A timer's part of `Tick`: decremented when nonzero, never below 0 (60_exceptions.md R262). -/
def countDown (t : Byte) : Byte := if t.toNat > 0 then t - 1 else t

/-- `Tick` (60_exceptions.md R262); in the halted state it is not modelled (R250, U14). -/
def tickEvent (s : State) : Host.Outcome State Fault Refusal :=
  if s.halted then .refused .tickWhileHalted
  else .next ((s.setDT (countDown s.DT)).setST (countDown s.ST))

/-- `DisplayConsumed` (43_display.md R203); in the halted state it is not modelled (R250, U14). -/
def displayConsumedEvent (s : State) : Host.Outcome State Fault Refusal :=
  if s.halted then .refused .displayConsumedWhileHalted
  else .next (s.setDisplay s.display false)

/-- `Reset(image)` (70_reset_and_hazards.md R280): at any time, halted or not. A longer image and unsupported
parameters are refused (U15, U6; log entry 16). -/
def resetEvent (image : List Byte) (s : State) : Host.Outcome State Fault Refusal :=
  if image.length > maxImage then .refused (.imageTooLong image.length)
  else if validConfig s.cfg = false then .refused .unsupportedConfig
  else .next (s.reboot image)

/-- One event (R6). -/
def applyEvent (e : Event) (s : State) : Host.Outcome State Fault Refusal :=
  match e with
  | .reset image => resetEvent image s
  | .step inputs => stepEvent inputs s
  | .tick => tickEvent s
  | .displayConsumed => displayConsumedEvent s

/-- The latch constraint the environment keeps: `last_key = k` implies `key_held[k] = 1` (10_state.md R49). -/
def StepInputs.latchOk (p : StepInputs) : Bool :=
  match p.lastKey with
  | none => true
  | some k => p.keyHeld.getLsbD k.toNat

/-- Free inputs that meet the latch constraint: a free key counts only if it is held (R49, U10, U12; log
entry 12). -/
def freeInputs (n : Nat) : StepInputs where
  rnd := Config.freeRnd n
  keyHeld := Config.freeKeyHeld n
  lastKey := (Config.freeLastKey n).filter fun k => (Config.freeKeyHeld n).getLsbD k.toNat

/-- The next event: the first scheduled one; with none scheduled, a `Step` with free inputs, which in the
halted state is not enabled (R250, U13; log entries 11, 14). -/
def nextEvent (s : State) : Host.Outcome State Fault Refusal :=
  match s.pending with
  | e :: rest => applyEvent e { s with pending := rest }
  | [] =>
    if s.halted then .fault (.engineHalted s.fault)
    else stepEvent (freeInputs s.draws) { s with draws := s.draws + 1 }

/-- `s` made ready to fetch the word `w` next: the word at `pc` in fetch order, nothing scheduled, the engine
running, and `pc` moved to the entry point if no word can be fetched from it (log entry 17). -/
def State.placeWord (s : State) (w : Word) : State :=
  let pc := if s.pc.toNat > 4094 then resetPc else s.pc
  let r := { s with pc := pc, halted := false, fault := none, pending := [] }
  (r.setByte pc.toNat (byte0OfWord s.cfg.fetchBigEndian w)).setByte (pc.toNat + 1)
    (byte1OfWord s.cfg.fetchBigEndian w)

end Sys2Proof.Machine
end

