-- ==== Sys2Proof/Safety.lean ====
section
/-! DEFINITION. Safety.lean: the words claims are stated in: a sound state, a faulted one, a finished program,
what an instruction may write, when it raises, and which pixels a sprite reaches. -/

namespace Sys2Proof.Machine

/-- The invariants the spec states of every reachable state, and the canonical form of memory. -/
structure State.Inv (s : State) : Prop where
  /-- The parameters are values the model accepts (93_implementation_defined.md U1, U4, U6). -/
  cfgValid : validConfig s.cfg = true
  /-- Memory is canonical (10_state.md R43). -/
  memWf : Memory.wf (background s.cfg) s.mem
  /-- `I <= 0x0FFF` (10_state.md R31). -/
  indexRange : s.I.toNat ≤ 0x0FFF
  /-- `sp <= STACK_DEPTH` (10_state.md R33). -/
  stackBound : s.sp ≤ s.cfg.stackDepth
  /-- `halted = true` exactly when `fault` is not none (10_state.md R36). -/
  haltRecord : s.halted = s.fault.isSome

/-- A faulted state: the engine has halted. It is never a final or successful state (60_exceptions.md R250,
U13). -/
def State.faulted (s : State) : Bool := s.halted

/-- A program is finished (70_reset_and_hazards.md R285): not halted, and the word at `pc` is a `JP` to that
same address. -/
def State.finished (s : State) : Bool :=
  !s.halted && s.fetch.map (decode s.cfg.opcodeMap s.cfg.strictLowNibble) == some (.instr (.jp (s.pc.setWidth 12))) &&
    s.pc == (s.pc.setWidth 12).setWidth 16

/-- `w` is the word of `i` under the default OPCODE_MAP, encoding and decoding, in both settings of
STRICT_LOW_NIBBLE (30_encoding.md R96; log entry 1). -/
def StandsFor (w : Word) (i : Instr) : Prop :=
  encode defaultOpcodeMap i = w ∧ ∀ strict, decode defaultOpcodeMap strict w = .instr i

/-! ### What a claim says of the state after -/

/-- `t` is `s` with `V[x] <- v` and nothing else (40_cycle_and_control_flow.md R120: every element a rule does
not name is unchanged). -/
def WritesReg (s t : State) (x : Nibble) (v : Byte) : Prop :=
  t = { s with V := t.V } ∧ t.reg x = v ∧ ∀ r, r ≠ x → t.reg r = s.reg r

/-- `t` is `s` with `V[x] <- v` and then `V[15] <- flag`, in that order, and nothing else
(41_immediate_and_alu.md R152). -/
def WritesRegThenFlag (s t : State) (x : Nibble) (v : Byte) (flag : Prop) : Prop :=
  t = { s with V := t.V } ∧ (flag → t.reg 15 = 1) ∧ (¬flag → t.reg 15 = 0) ∧ (x ≠ 15 → t.reg x = v) ∧
    ∀ r, r ≠ x → r ≠ 15 → t.reg r = s.reg r

/-- `t` is `s` after `raise cause` in `Execute(i)` (60_exceptions.md R245, R249): the record, with the word of `i` under
the machine's map, and the halt, `pc` any value, and nothing else of the spec's state (`draws` is the model's own). -/
def Raised (s t : State) (cause : Cause) (i : Instr) : Prop :=
  t = { s with fault := some ⟨cause, s.pc - 2, some (encode s.cfg.opcodeMap i)⟩, halted := true, pc := t.pc, draws := t.draws }

/-! ### What an instruction may write (10_state.md R21, R28, R30, R32, R34, R35, R47; 20_memory.md R65) -/

/-- The general registers `i` may write: its `V[x]`, VF as a flag, or `V[0]..V[x]` (R21, R28). -/
def mayWriteReg (i : Instr) (r : Nibble) : Bool :=
  match i with
  | .ldImm x _ | .addImm x _ | .ldReg x _ | .or x _ | .and x _ | .xor x _ | .rnd x _ | .ldVxDt x | .ldVxK x => r == x
  | .addReg x _ | .sub x _ | .subn x _ | .shr x _ | .shl x _ => r == x || r == 15
  | .addI _ | .drw _ _ _ => r == 15
  | .loadRegs x => r.toNat ≤ x.toNat
  | _ => false

/-- The addresses `i` may store to from `s` (R65). -/
def mayStoreAt (i : Instr) (s : State) (a : Nat) : Bool :=
  match i with
  | .ldB _ => s.base ≤ a && a ≤ s.base + 2
  | .storeRegs x => s.base ≤ a && a ≤ s.base + x.toNat
  | _ => false

/-- The writers of `I` (R30). -/
def writesIndex (i : Instr) : Bool :=
  match i with
  | .ldI _ | .addI _ | .ldF _ => true
  | _ => false

/-- The instructions that read an input of the step (40_cycle_and_control_flow.md R120, R226). -/
def readsInputs (i : Instr) : Bool :=
  match i with
  | .rnd _ _ | .skp _ | .sknp _ | .ldVxK _ => true
  | _ => false

/-- The fatal condition `Execute(i)` raises from `s`, if any (60_exceptions.md R242 to R244, R246). -/
def raises (i : Instr) (s : State) : Option Cause :=
  match i with
  | .ret => if s.sp = 0 then some .stackUnderflow else none
  | .call _ => if s.cfg.stackDepth ≤ s.sp then some .stackOverflow else none
  | .drw _ _ n => if n.toNat > 0 ∧ s.base + n.toNat - 1 > 4095 then some .memoryFault else none
  | .ldB _ => if s.base + 2 > 4095 then some .memoryFault else none
  | .storeRegs x | .loadRegs x => if s.base + x.toNat > 4095 then some .memoryFault else none
  | _ => none

/-! ### Sprites (43_display.md R201) -/

/-- The sprite of `DRW Vx, Vy, n` from `s` has a 1 bit on the pixel in row `r` and column `c` of the grid: the
start coordinates wrap, the body clips at both edges. -/
def State.spriteHits (s : State) (x y n : Nibble) (r c : Nat) : Prop :=
  let px := (s.reg x).toNat % 64
  let py := (s.reg y).toNat % 32
  r < 32 ∧ c < 64 ∧ py ≤ r ∧ r < py + n.toNat ∧ px ≤ c ∧ c < px + 8 ∧
    (s.byteAt (s.base + (r - py))).getLsbD (7 - (c - px)) = true

end Sys2Proof.Machine
end

