-- ==== Sys2Proof/Certificates/Slice0/Obligations.lean ====
section
/-! DEFINITION. Obligations.lean: the statements for the provers. A word an instruction `StandsFor` is its word under
the default OPCODE_MAP of 30_encoding.md R96: all numbers but 00E0, 6xnn and Annn are the spec's own decision D1 (log
entry 1). A docstring names the decision D<n> of
92_eei_decisions.md or the log entry a clause rests on. -/

open Sys2Proof Sys2Proof.Machine

/-! ### Reset and invariants -/

/-- The state after reset, as 10_state.md R52 lists it, with an empty image in memory (R281, with the decided
FONT_OFFSET and FONT_TABLE: D6, D8, log entries 6, 8). `pc = 0x0200` is D4. -/
def Obligations.ResetStateIsAsListed : Prop :=
  (∀ x, State.reset.reg x = 0) ∧ State.reset.I = 0 ∧ State.reset.pc = 0x0200 ∧ State.reset.sp = 0 ∧
  State.reset.DT = 0 ∧ State.reset.ST = 0 ∧ (∀ r c, State.reset.display.pixel r c = false) ∧
  State.reset.changed = false ∧ State.reset.halted = false ∧ State.reset.fault = none ∧
  ∀ A, A < 4096 → State.reset.byteAt A =
    if 80 ≤ A ∧ A < 160 then defaultFontTable.toList.getD (A - 80) 0 else 0

/-- R280, R281, R52 (decisions D4, D28): `Reset(image)` from any state, running or halted; a longer image is
refused. That the parameters are ones the model accepts is the model's premise (log entries 6, 7, 16). -/
def Obligations.ResetEventBuildsTheState : Prop :=
  ∀ (s : State) (image : List Byte),
    (image.length > 3584 → applyEvent (.reset image) s = .refused (.imageTooLong image.length)) ∧
    (image.length ≤ 3584 → validConfig s.cfg = true →
      ∃ t, applyEvent (.reset image) s = .next t ∧
        (∀ x, t.reg x = 0) ∧ t.I = 0 ∧ t.pc = 0x0200 ∧ t.sp = 0 ∧ t.DT = 0 ∧ t.ST = 0 ∧
        (∀ r c, t.display.pixel r c = false) ∧ t.changed = false ∧ t.halted = false ∧ t.fault = none ∧
        t.cfg = s.cfg ∧
        ∀ A, A < 4096 → t.byteAt A =
          if 512 ≤ A ∧ A < 512 + image.length then image.getD (A - 512) 0
          else if s.cfg.fontOffset ≤ A ∧ A < s.cfg.fontOffset + 80 then
            s.cfg.fontTable.toList.getD (A - s.cfg.fontOffset) 0
          else 0)

/-- The state after reset meets the invariants. -/
def Obligations.ResetStateMeetsTheInvariants : Prop :=
  State.reset.Inv

/-- Every step, whatever the event, keeps the invariants: accepted parameters (log entries 6, 7), canonical memory
(log entry 18), and, derived by the spec, `I <= 0x0FFF` (R31), `sp <= STACK_DEPTH` (R33), `halted` exactly when
there is a record (R36). -/
def Obligations.EveryStepKeepsTheInvariants : Prop :=
  ∀ s t : State, s.Inv → step s = .next t → t.Inv

/-! ### Encoding -/

/-- Decoding the word of a well-formed instruction gives it back, every operand at every value, in both settings of
STRICT_LOW_NIBBLE and under every OPCODE_MAP the model accepts (log entry 1). -/
def Obligations.DecodingAnEncodedInstructionGivesItBack : Prop :=
  ∀ (m : OpcodeMap) (strict : Bool) (i : Instr), validOpcodeMap m = true → i.wf strict = true →
    decode m strict (encode m i) = .instr i

/-- The other direction, under every OPCODE_MAP: a legal word is the word of the instruction it decodes to, which is
well-formed. -/
def Obligations.EncodingADecodedWordGivesItBack : Prop :=
  ∀ (m : OpcodeMap) (strict : Bool) (w : Word) (i : Instr),
    decode m strict w = .instr i → encode m i = w ∧ i.wf strict = true

/-- R95, R96, for every OPCODE_MAP the model accepts (log entry 1): the decoder of R94 answers the instruction of
the row a word selects; the rows are pairwise disjoint; a word that selects none is illegal. -/
def Obligations.DecoderFollowsTheOpcodeMap : Prop :=
  ∀ (m : OpcodeMap) (strict : Bool) (w : Word), validOpcodeMap m = true →
    (∀ i, decode m strict w = .instr i → selects w (rowOf m strict i) = true) ∧
    (∀ row ∈ opcodeRows m strict, selects w row = true →
      ∃ i, decode m strict w = .instr i ∧ rowOf m strict i = row) ∧
    (∀ row ∈ opcodeRows m strict, ∀ row' ∈ opcodeRows m strict,
      selects w row = true → selects w row' = true → row = row') ∧
    ((∀ row ∈ opcodeRows m strict, selects w row = false) → decode m strict w = .invalidOpcode)

/-- R96 (numbers: D1, log entry 1; strict masks: R98, D3, log entry 3): `match` and `mask` of the default
OPCODE_MAP, row by row, and the model accepts it. -/
def Obligations.TheDefaultOpcodeMapIsTheTable : Prop :=
  validOpcodeMap defaultOpcodeMap = true ∧ State.reset.cfg.opcodeMap = defaultOpcodeMap ∧
  ∀ strict, opcodeRows defaultOpcodeMap strict =
    [(0x00E0, 0xFFFF), (0x00EE, 0xFFFF), (0x1000, 0xF000), (0x2000, 0xF000), (0x3000, 0xF000), (0x4000, 0xF000),
      (0x5000, if strict then 0xF00F else 0xF000), (0x6000, 0xF000), (0x7000, 0xF000)] ++
    [(0x8000, 0xF00F), (0x8001, 0xF00F), (0x8002, 0xF00F), (0x8003, 0xF00F), (0x8004, 0xF00F), (0x8005, 0xF00F),
      (0x8006, 0xF00F), (0x8007, 0xF00F), (0x800E, 0xF00F)] ++
    [(0x9000, if strict then 0xF00F else 0xF000), (0xA000, 0xF000), (0xB000, 0xF000), (0xC000, 0xF000),
      (0xD000, 0xF000), (0xE09E, 0xF0FF), (0xE0A1, 0xF0FF)] ++
    [(0xF007, 0xF0FF), (0xF00A, 0xF0FF), (0xF015, 0xF0FF), (0xF018, 0xF0FF), (0xF01E, 0xF0FF), (0xF029, 0xF0FF),
      (0xF033, 0xF0FF), (0xF055, 0xF0FF), (0xF065, 0xF0FF)]

/-- R99 (a) to (d), and R98's words under STRICT_LOW_NIBBLE (D3, log entry 3): under the default OPCODE_MAP (D1, log
entry 1) exactly these words are illegal. -/
def Obligations.IllegalWordsAreExactlyTheListedOnes : Prop :=
  ∀ (strict : Bool) (w : Word), decode defaultOpcodeMap strict w = .invalidOpcode ↔
    (fieldOp w = 0 ∧ fieldNNN w ≠ 0x0E0 ∧ fieldNNN w ≠ 0x0EE) ∨
    (fieldOp w = 8 ∧ fieldN w ∈ [0x8, 0x9, 0xA, 0xB, 0xC, 0xD, 0xF]) ∨
    (fieldOp w = 0xE ∧ fieldNN w ∉ [0x9E, 0xA1]) ∨
    (fieldOp w = 0xF ∧ fieldNN w ∉ [0x07, 0x0A, 0x15, 0x18, 0x1E, 0x29, 0x33, 0x55, 0x65]) ∨
    (strict = true ∧ (fieldOp w = 5 ∨ fieldOp w = 9) ∧ fieldN w ≠ 0)

/-- A few words, one per family, decode to the instruction they stand for (95_test_vectors.md part 3), under the
default OPCODE_MAP (log entry 1). -/
def Obligations.ListedWordsDecodeAsListed : Prop :=
  StandsFor 0x00E0 .cls ∧ StandsFor 0x2FFF (.call 0xFFF) ∧ StandsFor 0x3AFF (.seImm 0xA 0xFF) ∧
  StandsFor 0x6A05 (.ldImm 0xA 5) ∧ StandsFor 0x8AB4 (.addReg 0xA 0xB) ∧ StandsFor 0xA2F0 (.ldI 0x2F0) ∧
  StandsFor 0xD12A (.drw 1 2 0xA) ∧ StandsFor 0xE1A1 (.sknp 1) ∧ StandsFor 0xF165 (.loadRegs 1) ∧
  decode defaultOpcodeMap false 0x0000 = .invalidOpcode

/-! ### The step and the environment's events -/

/-- R120: when the two bytes at `pc` decode to `i`, a step is `Execute(i)` with the inputs sampled and `pc` advanced
by 2, for a scheduled `Step` and, with nothing scheduled, for one with free inputs (the last is the model's, log
entries 11 and 12). -/
def Obligations.AStepExecutesTheDecodedInstruction : Prop :=
  ∀ (s : State) (i : Instr), s.halted = false → s.pc.toNat ≤ 4094 →
    decode s.cfg.opcodeMap s.cfg.strictLowNibble
      (wordOfBytes s.cfg.fetchBigEndian (s.byteAt s.pc.toNat) (s.byteAt (s.pc.toNat + 1))) = .instr i →
    (∀ inputs rest, s.pending = .step inputs :: rest →
      step s = exec i { s with pending := rest, inputs := inputs, pc := s.pc + 2 }) ∧
    (s.pending = [] →
      step s = exec i { s with draws := s.draws + 1, inputs := freeInputs s.draws, pc := s.pc + 2 })

/-- R121, and R62 for FETCH_BIG_ENDIAN (D2, log entry 2), odd addresses by D17 (log entry 24): for any `pc` up to
4094, even or odd, the fetch reads the bytes at `pc` and `pc + 1`, the first the high half under FETCH_BIG_ENDIAN;
above 4094 the step raises MemoryFault with `(pc, none)` and has no other effect but on `pc`, unspecified then
(R249, D16, log entry 13). -/
def Obligations.FetchReadsThePairOrFaults : Prop :=
  ∀ s : State,
    (s.pc.toNat ≤ 4094 → ∃ w, s.fetch = some w ∧
      (s.cfg.fetchBigEndian = true →
        w.toNat = 256 * (s.byteAt s.pc.toNat).toNat + (s.byteAt (s.pc.toNat + 1)).toNat) ∧
      (s.cfg.fetchBigEndian = false →
        w.toNat = 256 * (s.byteAt (s.pc.toNat + 1)).toNat + (s.byteAt s.pc.toNat).toNat)) ∧
    (4094 < s.pc.toNat → s.halted = false → ∀ inputs, ∃ t, applyEvent (.step inputs) s = .next t ∧
      t = { s with inputs := inputs, fault := some ⟨.memoryFault, s.pc, none⟩, halted := true,
                   pc := t.pc, draws := t.draws })

/-- R241, R245: a fetched word that decodes to nothing raises InvalidOpcode with the record `(1, pc, w)`, and
nothing but `pc` changes besides (decision D16). -/
def Obligations.AnIllegalWordHalts : Prop :=
  ∀ (s : State) (w : Word) (inputs : StepInputs), s.halted = false → s.fetch = some w →
    decode s.cfg.opcodeMap s.cfg.strictLowNibble w = .invalidOpcode →
    ∃ t, applyEvent (.step inputs) s = .next t ∧
      t = { s with inputs := inputs, fault := some ⟨.invalidOpcode, s.pc, some w⟩, halted := true,
                   pc := t.pc, draws := t.draws }

/-- R245 (decision D16), for the whole step: a `Step` of a running engine that ends halted records the address it
fetched from and the fetched word, none where the fetch failed, under every OPCODE_MAP. -/
def Obligations.TheRecordNamesTheFetchedWord : Prop :=
  ∀ (s t : State) (inputs : StepInputs), s.halted = false → s.fault = none →
    applyEvent (.step inputs) s = .next t → t.halted = true → ∃ cause, t.fault = some ⟨cause, s.pc, s.fetch⟩

/-- R250, R120 (D35): in the halted state `Step` has no effect; `Tick` and `DisplayConsumed` are refused (U14). With
nothing scheduled the model answers the fault `engineHalted` (log entry 14). -/
def Obligations.AHaltedEngineDoesNothing : Prop :=
  ∀ s : State, s.halted = true →
    (∀ inputs, applyEvent (.step inputs) s = .next s) ∧
    applyEvent .tick s = .refused .tickWhileHalted ∧
    applyEvent .displayConsumed s = .refused .displayConsumedWhileHalted ∧
    (s.pending = [] → step s = .fault (.engineHalted s.fault))

/-- R250, R251 (D35): from a halted state, a step that goes on is a `Reset`, or leaves everything as it is, the
record included. -/
def Obligations.OnlyResetLeavesTheHaltedState : Prop :=
  ∀ s t : State, s.halted = true → step s = .next t →
    (∃ image rest, s.pending = .reset image :: rest ∧ image.length ≤ 3584 ∧ t.halted = false ∧ t.fault = none) ∨
    t = { s with pending := s.pending.tail }

/-- R262: `Tick` decrements each timer that is nonzero, and nothing else changes. -/
def Obligations.TickCountsTheTimersDown : Prop :=
  ∀ s : State, s.halted = false → ∃ t, applyEvent .tick s = .next t ∧
    t = { s with DT := t.DT, ST := t.ST } ∧
    t.DT.toNat = s.DT.toNat - 1 ∧ t.ST.toNat = s.ST.toNat - 1

/-- R262, R34: `n` scheduled ticks take `n` off each timer, never below 0. -/
def Obligations.ManyTicksStopAtZero : Prop :=
  ∀ (n : Nat) (s : State) (rest : List Event), s.halted = false → s.pending = List.replicate n .tick ++ rest →
    ∃ t : State, Host.Core.run Sys2Proof.core n s = .next t ∧
      t = { s with DT := t.DT, ST := t.ST, pending := rest } ∧
      t.DT.toNat = s.DT.toNat - n ∧ t.ST.toNat = s.ST.toNat - n

/-- R203: `DisplayConsumed` clears `changed` and nothing else. -/
def Obligations.DisplayConsumedClearsChanged : Prop :=
  ∀ s : State, s.halted = false → applyEvent .displayConsumed s = .next { s with changed := false }

/-- A word placed by `withFetchWord` is the one the next step runs (the model's, log entry 17). -/
def Obligations.APlacedWordRunsNext : Prop :=
  ∀ (s : State) (w : Word) (i : Instr), Memory.wf (background s.cfg) s.mem →
    decode s.cfg.opcodeMap s.cfg.strictLowNibble w = .instr i →
    ∃ u, step (s.withFetchWord 16 w.toNat) = exec i u ∧
      u.pc = (if s.pc.toNat > 4094 then 0x0200 else s.pc) + 2 ∧
      u.V = s.V ∧ u.I = s.I ∧ u.stack = s.stack ∧ u.display = s.display ∧ u.cfg = s.cfg

/-! ### Control flow (40_cycle_and_control_flow.md) -/

/-- R123 (00EE: D1, log entry 1): RET pops the most recent frame into `pc`; on an empty stack it raises
StackUnderflow; right after a CALL it returns to the instruction after the call. -/
def Obligations.RetPopsOrUnderflows : Prop :=
  StandsFor 0x00EE .ret ∧
  ∀ s : State,
    (∀ f frames, s.stack = f :: frames → exec .ret s = .next { s with stack := frames, pc := f }) ∧
    (s.sp = 0 → ∃ t, exec .ret s = .next t ∧ Raised s t .stackUnderflow .ret) ∧
    (∀ nnn t, s.sp < s.cfg.stackDepth → exec (.call nnn) s = .next t →
      ∃ u, exec .ret t = .next u ∧ u.pc = s.pc ∧ u.stack = s.stack)

/-- R124 (1nnn: D1, log entry 1): JP writes `zext_16(nnn)` to `pc`. -/
def Obligations.JpSetsPc : Prop :=
  ∀ (nnn : Imm12) (s : State), StandsFor (0x1#4 ++ nnn) (.jp nnn) ∧
    ∃ t, exec (.jp nnn) s = .next t ∧ t = { s with pc := t.pc } ∧ t.pc.toNat = nnn.toNat

/-- R125 (2nnn: D1, log entry 1): CALL pushes the advanced `pc` and jumps; with STACK_DEPTH live frames it raises
StackOverflow, and neither the stack nor the target is written. -/
def Obligations.CallPushesOrOverflows : Prop :=
  ∀ (nnn : Imm12) (s : State), StandsFor (0x2#4 ++ nnn) (.call nnn) ∧
    (s.sp < s.cfg.stackDepth → ∃ t, exec (.call nnn) s = .next t ∧
      t = { s with stack := s.pc :: s.stack, pc := t.pc } ∧ t.sp = s.sp + 1 ∧ t.frame s.sp = some s.pc ∧
      t.pc.toNat = nnn.toNat) ∧
    (s.sp = s.cfg.stackDepth → ∃ t, exec (.call nnn) s = .next t ∧ Raised s t .stackOverflow (.call nnn))

/-- R123, R125: after a CALL, a RET on the same stack returns to the instruction after the call, whatever happened
to the rest of the state between. -/
def Obligations.ReturnGoesBackBehindTheCall : Prop :=
  ∀ (nnn : Imm12) (s t u : State), s.sp < s.cfg.stackDepth → exec (.call nnn) s = .next t →
    u.stack = t.stack → ∃ v, exec .ret u = .next v ∧ v.pc = s.pc ∧ v.stack = s.stack

/-- R126 to R130 (numbers: D1, log entry 1; low nibble: R98, D3, log entry 3): the four compare skips add 2 to the
advanced `pc` (modulo 65536) if their condition holds, and change nothing else; the low nibble of the register forms
is ignored. -/
def Obligations.CompareSkipsSkipOnTheirCondition : Prop :=
  ∀ (x y ign : Nibble) (nn : Byte) (s : State),
    StandsFor (0x3#4 ++ x ++ nn) (.seImm x nn) ∧
    StandsFor (0x4#4 ++ x ++ nn) (.sneImm x nn) ∧
    encode defaultOpcodeMap (.seReg x y ign) = 0x5#4 ++ x ++ y ++ ign ∧
    (∀ strict, decode defaultOpcodeMap strict (0x5#4 ++ x ++ y ++ ign) =
      if strict = true ∧ ign ≠ 0 then .invalidOpcode else .instr (.seReg x y ign)) ∧
    encode defaultOpcodeMap (.sneReg x y ign) = 0x9#4 ++ x ++ y ++ ign ∧
    (∀ strict, decode defaultOpcodeMap strict (0x9#4 ++ x ++ y ++ ign) =
      if strict = true ∧ ign ≠ 0 then .invalidOpcode else .instr (.sneReg x y ign)) ∧
    exec (.seImm x nn) s = .next { s with pc := if s.reg x = nn then s.pc + 2 else s.pc } ∧
    exec (.sneImm x nn) s = .next { s with pc := if s.reg x = nn then s.pc else s.pc + 2 } ∧
    exec (.seReg x y ign) s = .next { s with pc := if s.reg x = s.reg y then s.pc + 2 else s.pc } ∧
    exec (.sneReg x y ign) s = .next { s with pc := if s.reg x = s.reg y then s.pc else s.pc + 2 }

/-- R131 (Bnnn: D1, log entry 1): JP V0 adds `V[0]` to `nnn`; the sum is not masked to 12 bits (decision D18). -/
def Obligations.JpV0AddsRegisterZero : Prop :=
  ∀ (nnn : Imm12) (s : State), StandsFor (0xB#4 ++ nnn) (.jpV0 nnn) ∧
    ∃ t, exec (.jpV0 nnn) s = .next t ∧ t = { s with pc := t.pc } ∧ t.pc.toNat = nnn.toNat + (s.reg 0).toNat

/-! ### Immediate, ALU, random (41_immediate_and_alu.md) -/

/-- R150 (6xnn: pinned by the source): LD Vx, nn. -/
def Obligations.LoadImmediateSetsTheRegister : Prop :=
  ∀ (x : Nibble) (nn : Byte) (s : State), StandsFor (0x6#4 ++ x ++ nn) (.ldImm x nn) ∧
    ∃ t, exec (.ldImm x nn) s = .next t ∧ WritesReg s t x nn

/-- R151 (7xnn: D1, log entry 1): ADD Vx, nn wraps modulo 256 and writes no flag. -/
def Obligations.AddImmediateWrapsWithoutFlag : Prop :=
  ∀ (x : Nibble) (nn : Byte) (s : State), StandsFor (0x7#4 ++ x ++ nn) (.addImm x nn) ∧
    ∃ t, exec (.addImm x nn) s = .next t ∧
      WritesReg s t x (BitVec.ofNat 8 (((s.reg x).toNat + nn.toNat) % 256))

/-- R153 to R156 (8xy0 to 8xy3: D1, log entry 1): copy, OR, AND and XOR write `V[x]` only, bit by bit; VF is not
written (decision D9). -/
def Obligations.CopyAndLogicWriteOnlyVx : Prop :=
  ∀ (x y : Nibble) (s : State),
    StandsFor (0x8#4 ++ x ++ y ++ 0x0#4) (.ldReg x y) ∧
    StandsFor (0x8#4 ++ x ++ y ++ 0x1#4) (.or x y) ∧
    StandsFor (0x8#4 ++ x ++ y ++ 0x2#4) (.and x y) ∧
    StandsFor (0x8#4 ++ x ++ y ++ 0x3#4) (.xor x y) ∧
    (∃ t, exec (.ldReg x y) s = .next t ∧ WritesReg s t x (s.reg y)) ∧
    (∃ t, exec (.or x y) s = .next t ∧ WritesReg s t x (t.reg x) ∧
      ∀ k, k < 8 → (t.reg x).getLsbD k = ((s.reg x).getLsbD k || (s.reg y).getLsbD k)) ∧
    (∃ t, exec (.and x y) s = .next t ∧ WritesReg s t x (t.reg x) ∧
      ∀ k, k < 8 → (t.reg x).getLsbD k = ((s.reg x).getLsbD k && (s.reg y).getLsbD k)) ∧
    (∃ t, exec (.xor x y) s = .next t ∧ WritesReg s t x (t.reg x) ∧
      ∀ k, k < 8 → (t.reg x).getLsbD k = ((s.reg x).getLsbD k != (s.reg y).getLsbD k))

/-- R157, R152 (8xy4: D1, log entry 1): ADD Vx, Vy wraps modulo 256; VF, written last, is the carry out. -/
def Obligations.AddRegistersSetsCarry : Prop :=
  ∀ (x y : Nibble) (s : State), StandsFor (0x8#4 ++ x ++ y ++ 0x4#4) (.addReg x y) ∧
    ∃ t, exec (.addReg x y) s = .next t ∧
      WritesRegThenFlag s t x (BitVec.ofNat 8 (((s.reg x).toNat + (s.reg y).toNat) % 256))
        ((s.reg x).toNat + (s.reg y).toNat > 255)

/-- R158, R152 (8xy5: D1, log entry 1): SUB Vx, Vy; VF, written last, is 0 iff `V[x] < V[y]` (equal operands: D23).
-/
def Obligations.SubtractSetsNotBorrow : Prop :=
  ∀ (x y : Nibble) (s : State), StandsFor (0x8#4 ++ x ++ y ++ 0x5#4) (.sub x y) ∧
    ∃ t, exec (.sub x y) s = .next t ∧
      WritesRegThenFlag s t x (BitVec.ofNat 8 (((s.reg x).toNat + 256 - (s.reg y).toNat) % 256))
        ((s.reg y).toNat ≤ (s.reg x).toNat)

/-- R161, R152 (8xy7: D1, log entry 1): SUBN Vx, Vy; VF, written last, is 0 iff `V[y] < V[x]` (equal operands: D23).
-/
def Obligations.ReverseSubtractSetsNotBorrow : Prop :=
  ∀ (x y : Nibble) (s : State), StandsFor (0x8#4 ++ x ++ y ++ 0x7#4) (.subn x y) ∧
    ∃ t, exec (.subn x y) s = .next t ∧
      WritesRegThenFlag s t x (BitVec.ofNat 8 (((s.reg y).toNat + 256 - (s.reg x).toNat) % 256))
        ((s.reg x).toNat ≤ (s.reg y).toNat)

/-- R160, R152 (8x_6: D1, log entry 1; every `y`: R98, D3, log entry 3): SHR Vx halves `V[x]`, ignores the `y`
nibble, and VF is the old bit 0. -/
def Obligations.ShiftRightMovesBitZeroOut : Prop :=
  ∀ (x ign : Nibble) (s : State), StandsFor (0x8#4 ++ x ++ ign ++ 0x6#4) (.shr x ign) ∧
    ∃ t, exec (.shr x ign) s = .next t ∧
      WritesRegThenFlag s t x (BitVec.ofNat 8 ((s.reg x).toNat / 2)) ((s.reg x).toNat % 2 = 1)

/-- R162, R152 (8x_E: D1, log entry 1; every `y`: R98, D3, log entry 3): SHL Vx doubles `V[x]` modulo 256, ignores
the `y` nibble, and VF is the old bit 7. -/
def Obligations.ShiftLeftMovesBitSevenOut : Prop :=
  ∀ (x ign : Nibble) (s : State), StandsFor (0x8#4 ++ x ++ ign ++ 0xE#4) (.shl x ign) ∧
    ∃ t, exec (.shl x ign) s = .next t ∧
      WritesRegThenFlag s t x (BitVec.ofNat 8 ((s.reg x).toNat * 2 % 256)) (128 ≤ (s.reg x).toNat)

/-- R163 (Cxnn: D1, log entry 1; every random byte: D20): RND writes the step's random byte masked by `nn`, for
every value of the byte; no bit is set that `nn` lacks. -/
def Obligations.RandomIsMaskedByNn : Prop :=
  ∀ (x : Nibble) (nn : Byte) (s : State), StandsFor (0xC#4 ++ x ++ nn) (.rnd x nn) ∧
    ∃ t, exec (.rnd x nn) s = .next t ∧ WritesReg s t x (t.reg x) ∧
      ∀ k, k < 8 → (t.reg x).getLsbD k = (s.inputs.rnd.getLsbD k && nn.getLsbD k)

/-! ### Index and memory (42_index_and_memory.md) -/

/-- R180 (Annn: pinned by the source): LD I, nnn. -/
def Obligations.LoadIndexSetsTwelveBits : Prop :=
  ∀ (nnn : Imm12) (s : State), StandsFor (0xA#4 ++ nnn) (.ldI nnn) ∧
    ∃ t, exec (.ldI nnn) s = .next t ∧ t = { s with I := t.I } ∧ t.I.toNat = nnn.toNat

/-- R181 (Fx1E: D1, log entry 1): ADD I, Vx masks the sum to 12 bits; VF becomes 1 when the sum leaves 12 bits and
is kept otherwise (decision D10); no other register changes. -/
def Obligations.AddToIndexMasksAndFlags : Prop :=
  ∀ (x : Nibble) (s : State), StandsFor (0xF#4 ++ x ++ 0x1E#8) (.addI x) ∧
    ∃ t, exec (.addI x) s = .next t ∧ t = { s with I := t.I, V := t.V } ∧
      t.I.toNat = (s.I.toNat + (s.reg x).toNat) % 4096 ∧
      t.reg 15 = (if s.I.toNat + (s.reg x).toNat > 0x0FFF then 1 else s.reg 15) ∧
      ∀ r, r ≠ 15 → t.reg r = s.reg r

/-- R182 (Fx29: D1, log entry 1; FONT_STRIDE: D7): LD F, Vx computes `FONT_OFFSET + FONT_STRIDE * (V[x] AND 0x0F)`
for the parameters of the machine, and reads no memory. The premise that they are accepted is the model's (log entry
7). -/
def Obligations.FontAddressFollowsTheFormula : Prop :=
  ∀ (x : Nibble) (s : State), StandsFor (0xF#4 ++ x ++ 0x29#8) (.ldF x) ∧
    (validConfig s.cfg = true → ∃ t, exec (.ldF x) s = .next t ∧ t = { s with I := t.I } ∧
      t.I.toNat = s.cfg.fontOffset + s.cfg.fontStride * ((s.reg x).toNat % 16))

/-- R183 (Fx33: D1, log entry 1): LD B, Vx stores the hundreds, tens and ones of `V[x]` at `B`, `B+1`, `B+2` and
nothing else; if `B+2` is above 4095 it raises MemoryFault and stores nothing (D14). -/
def Obligations.DecimalConversionStoresThreeDigits : Prop :=
  ∀ (x : Nibble) (s : State), Memory.wf (background s.cfg) s.mem →
    StandsFor (0xF#4 ++ x ++ 0x33#8) (.ldB x) ∧
    (s.base + 2 ≤ 4095 → ∃ t, exec (.ldB x) s = .next t ∧ t = { s with mem := t.mem } ∧
      (t.byteAt s.base).toNat = (s.reg x).toNat / 100 ∧
      (t.byteAt (s.base + 1)).toNat = (s.reg x).toNat / 10 % 10 ∧
      (t.byteAt (s.base + 2)).toNat = (s.reg x).toNat % 10 ∧
      ∀ a, a < s.base ∨ s.base + 2 < a → t.byteAt a = s.byteAt a) ∧
    (4095 < s.base + 2 → ∃ t, exec (.ldB x) s = .next t ∧ Raised s t .memoryFault (.ldB x))

/-- R184, R249 (Fx55: D1, log entry 1): LD [I], Vx stores `V[i]` at `B + i` for `i` up to `x`, as far as memory
reaches, and nothing else; `I` is kept (D11); past 4095 it raises MemoryFault and the earlier writes stay (D31). -/
def Obligations.BlockStoreWritesRegistersInOrder : Prop :=
  ∀ (x : Nibble) (s : State), Memory.wf (background s.cfg) s.mem →
    StandsFor (0xF#4 ++ x ++ 0x55#8) (.storeRegs x) ∧
    ∃ t, exec (.storeRegs x) s = .next t ∧
      (s.base + x.toNat ≤ 4095 → t = { s with mem := t.mem }) ∧
      (4095 < s.base + x.toNat → Raised { s with mem := t.mem } t .memoryFault (.storeRegs x)) ∧
      (∀ i : Nibble, i.toNat ≤ x.toNat → s.base + i.toNat ≤ 4095 → t.byteAt (s.base + i.toNat) = s.reg i) ∧
      ∀ a, a < s.base ∨ s.base + x.toNat < a ∨ 4095 < a → t.byteAt a = s.byteAt a

/-- R185, R249 (Fx65: D1, log entry 1): LD Vx, [I] loads `V[i]` from `B + i` for `i` up to `x`, as far as memory
reaches, and nothing else; `I` is kept (D11); past 4095 it raises MemoryFault and the earlier loads stay (D31). -/
def Obligations.BlockLoadReadsRegistersInOrder : Prop :=
  ∀ (x : Nibble) (s : State),
    StandsFor (0xF#4 ++ x ++ 0x65#8) (.loadRegs x) ∧
    ∃ t, exec (.loadRegs x) s = .next t ∧
      (s.base + x.toNat ≤ 4095 → t = { s with V := t.V }) ∧
      (4095 < s.base + x.toNat → Raised { s with V := t.V } t .memoryFault (.loadRegs x)) ∧
      (∀ i : Nibble, i.toNat ≤ x.toNat → s.base + i.toNat ≤ 4095 → t.reg i = s.byteAt (s.base + i.toNat)) ∧
      ∀ i : Nibble, x.toNat < i.toNat ∨ 4095 < s.base + i.toNat → t.reg i = s.reg i

/-- R72 (D25): the two bytes a block store leaves at the next instruction's address are what the next fetch reads.
-/
def Obligations.AStoreIsSeenByTheNextFetch : Prop :=
  ∀ (x k : Nibble) (s t : State), Memory.wf (background s.cfg) s.mem → s.base + x.toNat ≤ 4095 →
    k.toNat + 1 ≤ x.toNat → s.pc.toNat = s.base + k.toNat → exec (.storeRegs x) s = .next t →
    t.fetch = some (wordOfBytes s.cfg.fetchBigEndian (s.reg k) (s.reg (k + 1)))

/-! ### Display (43_display.md) -/

/-- R200 (00E0: pinned by the source): CLS clears every pixel and sets `changed`. -/
def Obligations.ClearDisplayClearsEveryPixel : Prop :=
  StandsFor 0x00E0 .cls ∧
  ∀ s : State, ∃ t, exec .cls s = .next t ∧ t = { s with display := t.display, changed := true } ∧
    ∀ r c, r < 32 → c < 64 → t.display.pixel r c = false

/-- R201 (Dxyn: D1, log entry 1): DRW inverts exactly the pixels its clipped sprite hits; VF is 1 iff one of them
was set, else 0; `changed` is set iff some pixel was hit; if a sprite byte lies above 4095 it raises MemoryFault and
nothing else changes, VF included. Read order, range check, `n = 0` and `changed` are decisions D12, D13, D27. -/
def Obligations.DrawInvertsThePixelsOfTheClippedSprite : Prop :=
  ∀ (x y n : Nibble) (s : State),
    StandsFor (0xD#4 ++ x ++ y ++ n) (.drw x y n) ∧
    (n.toNat = 0 ∨ s.base + n.toNat - 1 ≤ 4095 → ∃ t, exec (.drw x y n) s = .next t ∧
      t = { s with V := t.V, display := t.display, changed := t.changed } ∧
      (∀ r, r ≠ 15 → t.reg r = s.reg r) ∧
      (∀ r c, s.spriteHits x y n r c → t.display.pixel r c = !s.display.pixel r c) ∧
      (∀ r c, ¬s.spriteHits x y n r c → t.display.pixel r c = s.display.pixel r c) ∧
      ((∃ r c, s.spriteHits x y n r c ∧ s.display.pixel r c = true) → t.reg 15 = 1) ∧
      ((¬∃ r c, s.spriteHits x y n r c ∧ s.display.pixel r c = true) → t.reg 15 = 0) ∧
      (t.changed = true ↔ s.changed = true ∨ ∃ r c, s.spriteHits x y n r c)) ∧
    (n.toNat > 0 ∧ 4095 < s.base + n.toNat - 1 → ∃ t, exec (.drw x y n) s = .next t ∧
      Raised s t .memoryFault (.drw x y n))

/-- R202 (a), (d), derived by the spec from R201: two identical draws restore every pixel (neither coordinate in
VF), and the second reports a collision if the first turned a pixel on. -/
def Obligations.DrawingTwiceRestoresTheDisplay : Prop :=
  ∀ (x y n : Nibble) (s : State), x ≠ 15 → y ≠ 15 → (n.toNat = 0 ∨ s.base + n.toNat - 1 ≤ 4095) →
    ∃ t u, exec (.drw x y n) s = .next t ∧ exec (.drw x y n) t = .next u ∧ u.display = s.display ∧
      ((∃ r c, s.spriteHits x y n r c ∧ s.display.pixel r c = false) → u.reg 15 = 1)

/-! ### Input and timers (44_input_and_timers.md) -/

/-- R220, R221 (Ex9E, ExA1: D1, log entry 1; `key_held`: D15, log entry 24): SKP and SKNP skip on the held bit of
the key named by the low nibble of `V[x]`. -/
def Obligations.KeySkipsReadTheHeldBit : Prop :=
  ∀ (x : Nibble) (s : State),
    StandsFor (0xE#4 ++ x ++ 0x9E#8) (.skp x) ∧
    StandsFor (0xE#4 ++ x ++ 0xA1#8) (.sknp x) ∧
    exec (.skp x) s =
      .next { s with pc := if s.inputs.keyHeld.getLsbD ((s.reg x).toNat % 16) = true then s.pc + 2 else s.pc } ∧
    exec (.sknp x) s =
      .next { s with pc := if s.inputs.keyHeld.getLsbD ((s.reg x).toNat % 16) = true then s.pc else s.pc + 2 }

/-- R222 (Fx0A: D1, log entry 1): LD Vx, K writes the key number if there is one; with none it goes back to its own
address and changes nothing else (D15, D30). -/
def Obligations.WaitForKeyPollsTheLastKey : Prop :=
  ∀ (x : Nibble) (s : State), StandsFor (0xF#4 ++ x ++ 0x0A#8) (.ldVxK x) ∧
    (∀ k, s.inputs.lastKey = some k → ∃ t, exec (.ldVxK x) s = .next t ∧
      WritesReg s t x (BitVec.ofNat 8 k.toNat)) ∧
    (s.inputs.lastKey = none → exec (.ldVxK x) s = .next { s with pc := s.pc - 2 })

/-- R223 to R225 (Fx07, Fx15, Fx18: D1, log entry 1): the timer reads and writes. -/
def Obligations.TimerInstructionsCopyTheTimers : Prop :=
  ∀ (x : Nibble) (s : State),
    StandsFor (0xF#4 ++ x ++ 0x07#8) (.ldVxDt x) ∧
    StandsFor (0xF#4 ++ x ++ 0x15#8) (.ldDtVx x) ∧
    StandsFor (0xF#4 ++ x ++ 0x18#8) (.ldStVx x) ∧
    (∃ t, exec (.ldVxDt x) s = .next t ∧ WritesReg s t x s.DT) ∧
    exec (.ldDtVx x) s = .next { s with DT := s.reg x } ∧
    exec (.ldStVx x) s = .next { s with ST := s.reg x }

/-! ### The whole machine -/

/-- Every instruction answers a next state, from every state. -/
def Obligations.EveryInstructionAnswersANextState : Prop :=
  ∀ (i : Instr) (s : State), ∃ t, exec i s = .next t

/-- R21, R28: a register changes only if it is the instruction's destination or the VF of a flag-writing
instruction. -/
def Obligations.OnlyNamedRegistersChange : Prop :=
  ∀ (i : Instr) (s t : State) (r : Nibble), exec i s = .next t → mayWriteReg i r = false → t.reg r = s.reg r

/-- R65 (derived by the spec): a byte of memory changes only where LD B or LD [I], Vx stores. -/
def Obligations.OnlyStoredBytesChange : Prop :=
  ∀ (i : Instr) (s t : State) (a : Nat), exec i s = .next t → mayStoreAt i s a = false → t.byteAt a = s.byteAt a

/-- R30, R32, R34, R35, R47, R48: only the named instructions change `I`, the stack, the timers and the display; the
parameters, the inputs and the schedule (the model's fields, log entries 9 to 11) never change. -/
def Obligations.OnlyNamedInstructionsChangeTheRest : Prop :=
  ∀ (i : Instr) (s t : State), exec i s = .next t →
    (writesIndex i = false → t.I = s.I) ∧
    ((∀ nnn, i ≠ .call nnn) → i ≠ .ret → t.stack = s.stack) ∧
    ((∀ x, i ≠ .ldDtVx x) → t.DT = s.DT) ∧
    ((∀ x, i ≠ .ldStVx x) → t.ST = s.ST) ∧
    (i ≠ .cls → (∀ x y n, i ≠ .drw x y n) → t.display = s.display ∧ t.changed = s.changed) ∧
    t.cfg = s.cfg ∧ t.inputs = s.inputs ∧ t.pending = s.pending

/-- R246 (derived by the spec), R242 to R245 (the record: D16): an instruction raises exactly when its rule says so,
with its cause, its own address and its word; otherwise it does not halt the engine. CALL overflows at STACK_DEPTH
frames or more, where R125 and R242 say equal (log entry 19), and the address is `pc - 2` (log entry 20). -/
def Obligations.InstructionsRaiseExactlyWhenTheyShould : Prop :=
  ∀ (i : Instr) (s t : State), s.halted = false → s.fault = none → exec i s = .next t →
    t.halted = (raises i s).isSome ∧
    t.fault = (raises i s).map fun cause => ⟨cause, s.pc - 2, some (encode s.cfg.opcodeMap i)⟩

/-- R48: no instruction reads `changed`; whatever it holds, everything else comes out the same. -/
def Obligations.TheChangedFlagIsNeverRead : Prop :=
  ∀ (i : Instr) (s t u : State) (b : Bool), exec i s = .next t → exec i { s with changed := b } = .next u →
    u = { t with changed := u.changed }

/-- R120: only RND, SKP, SKNP and LD Vx, K read the step's inputs. -/
def Obligations.OnlyFourInstructionsReadTheInputs : Prop :=
  ∀ (i : Instr) (s t u : State) (p : StepInputs), readsInputs i = false → exec i s = .next t →
    exec i { s with inputs := p } = .next u → u = { t with inputs := p }

/-- R285 (derived by the spec from R124): a finished program stays as it is under every further `Step`. -/
def Obligations.AFinishedProgramStaysFinished : Prop :=
  ∀ (s : State) (inputs : StepInputs), s.finished = true →
    applyEvent (.step inputs) s = .next { s with inputs := inputs }
end

