-- ==== Sys2Proof/Laws/Decode.lean ====
section
/-! SUPPORT. Laws/Decode.lean: the one dispatch of the decoder, the fields of the words the formats build, masks taken
nibble by nibble, and words taken apart into fields (30_encoding.md R91, R92, R94). -/

namespace Sys2Proof

open Machine

/-! ### Dispatch -/

section dispatch
variable {α : Type} [DecidableEq α] {key : α} {rows : List (α × Decoded)}

/-- An instruction comes from a row with the key's number. -/
theorem mem_of_dispatch {i : Instr} (h : dispatch key rows = .instr i) : (key, .instr i) ∈ rows := by
  induction rows with
  | nil => cases h
  | cons r rows ih =>
    rw [dispatch] at h
    split at h
    · next hk => subst hk; exact h ▸ List.mem_cons_self
    · exact List.mem_cons_of_mem _ (ih h)

/-- Where no number is used twice, a row with the key's number is the answer. -/
theorem dispatch_of_mem {d : Decoded} (hn : (rows.map Prod.fst).Nodup) (h : (key, d) ∈ rows) : dispatch key rows = d := by
  induction rows with
  | nil => cases h
  | cons r rows ih =>
    rw [List.map_cons, List.nodup_cons] at hn
    rw [dispatch]
    rcases List.mem_cons.mp h with rfl | h
    · exact if_pos rfl
    · have hk : r.1 ≠ key := fun e => hn.1 (e.symm ▸ List.mem_map_of_mem (f := Prod.fst) h)
      rw [if_neg hk]
      exact ih hn.2 h

/-- A key that is no row's number is illegal. -/
theorem dispatch_of_not_mem (h : key ∉ rows.map Prod.fst) : dispatch key rows = .invalidOpcode := by
  induction rows with
  | nil => rfl
  | cons r rows ih =>
    rw [List.map_cons, List.mem_cons, not_or] at h
    rw [dispatch, if_neg (Ne.symm h.1)]
    exact ih h.2

end dispatch

/-- The register skips decode to themselves exactly when the low nibble is legal. -/
theorem decodeSkip_eq_instr {strict : Bool} {n : Nibble} {i j : Instr} :
    decodeSkip strict n i = .instr j ↔ ignOk strict n = true ∧ i = j := by
  rw [decodeSkip]
  split <;> simp_all

/-! ### Fields of formatted words -/

section fields
variable (op x y n : Nibble) (nn : Byte) (nnn : Imm12)

@[simp] theorem fieldN_formatXYN : fieldN (formatXYN op x y n) = n :=
  BitVec.extractLsb'_append_eq_right (a := op ++ x ++ y)

@[simp] theorem fieldY_formatXYN : fieldY (formatXYN op x y n) = y :=
  (BitVec.extractLsb'_append_eq_of_le (xhi := op ++ x ++ y) (xlo := n) (start := 4) (by decide)).trans
    (BitVec.extractLsb'_append_eq_right (a := op ++ x))

@[simp] theorem fieldX_formatXYN : fieldX (formatXYN op x y n) = x :=
  (BitVec.extractLsb'_append_eq_of_le (xhi := op ++ x ++ y) (xlo := n) (start := 8) (by decide)).trans
    ((BitVec.extractLsb'_append_eq_of_le (xhi := op ++ x) (xlo := y) (start := 4) (by decide)).trans
      (BitVec.extractLsb'_append_eq_right (a := op)))

@[simp] theorem fieldOp_formatXYN : fieldOp (formatXYN op x y n) = op :=
  (BitVec.extractLsb'_append_eq_of_le (xhi := op ++ x ++ y) (xlo := n) (start := 12) (by decide)).trans
    ((BitVec.extractLsb'_append_eq_of_le (xhi := op ++ x) (xlo := y) (start := 8) (by decide)).trans
      (BitVec.extractLsb'_append_eq_left (a := op)))

@[simp] theorem fieldNN_formatXNN : fieldNN (formatXNN op x nn) = nn :=
  BitVec.extractLsb'_append_eq_right (a := op ++ x)

@[simp] theorem fieldX_formatXNN : fieldX (formatXNN op x nn) = x :=
  (BitVec.extractLsb'_append_eq_of_le (xhi := op ++ x) (xlo := nn) (start := 8) (by decide)).trans
    (BitVec.extractLsb'_append_eq_right (a := op))

@[simp] theorem fieldOp_formatXNN : fieldOp (formatXNN op x nn) = op :=
  (BitVec.extractLsb'_append_eq_of_le (xhi := op ++ x) (xlo := nn) (start := 12) (by decide)).trans
    (BitVec.extractLsb'_append_eq_left (a := op))

@[simp] theorem fieldNNN_formatNNN : fieldNNN (formatNNN op nnn) = nnn :=
  BitVec.extractLsb'_append_eq_right (a := op)

@[simp] theorem fieldOp_formatNNN : fieldOp (formatNNN op nnn) = op :=
  BitVec.extractLsb'_append_eq_left (a := op)

/-! ### Masks -/

theorem formatXYN_and (a b c d : Nibble) :
    formatXYN op x y n &&& formatXYN a b c d = formatXYN (op &&& a) (x &&& b) (y &&& c) (n &&& d) := by
  simp only [formatXYN]
  rw [BitVec.and_append, BitVec.and_append, BitVec.and_append]

theorem formatXNN_and (a b : Nibble) (c : Byte) :
    formatXNN op x nn &&& formatXNN a b c = formatXNN (op &&& a) (x &&& b) (nn &&& c) := by
  simp only [formatXNN]
  rw [BitVec.and_append, BitVec.and_append]

theorem formatNNN_and (a : Nibble) (c : Imm12) :
    formatNNN op nnn &&& formatNNN a c = formatNNN (op &&& a) (nnn &&& c) := by
  simp only [formatNNN]
  rw [BitVec.and_append]

theorem formatXNN_zero : formatXNN op 0 0 = formatNNN op 0 := by
  revert op; decide

theorem formatXYN_zero : formatXYN op 0 0 0 = formatNNN op 0 := by
  revert op; decide

end fields

/-! ### A word is built from its fields -/

theorem formatNNN_fields (w : Word) : formatNNN (fieldOp w) (fieldNNN w) = w := by
  rw [formatNNN, fieldOp, fieldNNN]
  exact BitVec.extractLsb'_append_extractLsb'_eq_extractLsb' rfl |>.trans (BitVec.extractLsb'_eq_self)

theorem formatXNN_fields (w : Word) : formatXNN (fieldOp w) (fieldX w) (fieldNN w) = w := by
  have h : fieldOp w ++ fieldX w = w.extractLsb' 8 8 := BitVec.extractLsb'_append_extractLsb'_eq_extractLsb' rfl
  rw [formatXNN, h, fieldNN]
  exact BitVec.extractLsb'_append_extractLsb'_eq_extractLsb' rfl |>.trans (BitVec.extractLsb'_eq_self)

theorem formatXYN_fields (w : Word) : formatXYN (fieldOp w) (fieldX w) (fieldY w) (fieldN w) = w := by
  have h : fieldOp w ++ fieldX w = w.extractLsb' 8 8 := BitVec.extractLsb'_append_extractLsb'_eq_extractLsb' rfl
  have h' : w.extractLsb' 8 8 ++ fieldY w = w.extractLsb' 4 12 :=
    BitVec.extractLsb'_append_extractLsb'_eq_extractLsb' rfl
  rw [formatXYN, h, h', fieldN]
  exact BitVec.extractLsb'_append_extractLsb'_eq_extractLsb' rfl |>.trans (BitVec.extractLsb'_eq_self)

/-! ### What a row selects (30_encoding.md R96) -/

theorem selects_rowExact {w c : Word} : selects w (rowExact c) = true ↔ w = c := by
  have h : w &&& 0xFFFF = w := BitVec.and_allOnes
  simp only [selects, rowExact, h, beq_iff_eq]

theorem selects_rowOp {w : Word} {op : Nibble} : selects w (rowOp op) = true ↔ fieldOp w = op := by
  have hm : (0xF000 : Word) = formatNNN 0xF 0 := rfl
  have ho : fieldOp w &&& 0xF = fieldOp w := BitVec.and_allOnes
  have hn : fieldNNN w &&& 0 = 0 := BitVec.and_zero
  rw [selects, ← formatNNN_fields w, rowOp, hm, formatNNN_and, ho, hn, beq_iff_eq, formatNNN_fields]
  exact ⟨fun h => by simpa using congrArg fieldOp h, fun h => by rw [h]⟩

theorem selects_rowN {w : Word} {op n : Nibble} :
    selects w (rowN op n) = true ↔ fieldOp w = op ∧ fieldN w = n := by
  have hm : (0xF00F : Word) = formatXYN 0xF 0 0 0xF := rfl
  have ho : fieldOp w &&& 0xF = fieldOp w := BitVec.and_allOnes
  have hx : fieldX w &&& 0 = 0 := BitVec.and_zero
  have hy : fieldY w &&& 0 = 0 := BitVec.and_zero
  have hn : fieldN w &&& 0xF = fieldN w := BitVec.and_allOnes
  rw [selects, ← formatXYN_fields w, rowN, hm, formatXYN_and, ho, hx, hy, hn, beq_iff_eq, formatXYN_fields]
  exact ⟨fun h => ⟨by simpa using congrArg fieldOp h, by simpa using congrArg fieldN h⟩, fun h => by rw [h.1, h.2]⟩

theorem selects_rowNN {w : Word} {op : Nibble} {nn : Byte} :
    selects w (rowNN op nn) = true ↔ fieldOp w = op ∧ fieldNN w = nn := by
  have hm : (0xF0FF : Word) = formatXNN 0xF 0 0xFF := rfl
  have ho : fieldOp w &&& 0xF = fieldOp w := BitVec.and_allOnes
  have hx : fieldX w &&& 0 = 0 := BitVec.and_zero
  have hn : fieldNN w &&& 0xFF = fieldNN w := BitVec.and_allOnes
  rw [selects, ← formatXNN_fields w, rowNN, hm, formatXNN_and, ho, hx, hn, beq_iff_eq, formatXNN_fields]
  exact ⟨fun h => ⟨by simpa using congrArg fieldOp h, by simpa using congrArg fieldNN h⟩, fun h => by rw [h.1, h.2]⟩

theorem selects_rowSkip {w : Word} {op : Nibble} {strict : Bool} :
    selects w (rowSkip strict op) = true ↔ fieldOp w = op ∧ ignOk strict (fieldN w) = true := by
  cases strict with
  | false =>
    have h : rowSkip false op = rowOp op := by rw [rowSkip, formatXYN_zero]; rfl
    rw [h, selects_rowOp]
    exact ⟨fun h => ⟨h, rfl⟩, fun h => h.1⟩
  | true =>
    have h : rowSkip true op = rowN op 0 := rfl
    rw [h, selects_rowN]
    simp [ignOk]

/-! ### Accepted opcode maps (log entry 1) -/

/-- What the decoder needs of an accepted map. -/
structure AcceptedMap (m : OpcodeMap) : Prop where
  clsWord : m.cls = 0x00E0
  retOp : fieldOp m.ret = 0
  retNeCls : m.ret ≠ m.cls
  opsNonzero : 0 ∉ opNumbers m
  opsNodup : (opNumbers m).Nodup
  aluNodup : (aluNumbers m).Nodup
  keyNe : m.skp ≠ m.sknp
  miscNodup : (miscNumbers m).Nodup

theorem acceptedMap {m : OpcodeMap} (h : validOpcodeMap m = true) : AcceptedMap m := by
  simp only [validOpcodeMap, Bool.and_eq_true, beq_iff_eq, bne_iff_ne, decide_eq_true_eq] at h
  obtain ⟨⟨⟨⟨⟨⟨⟨⟨⟨hcls, -⟩, -⟩, hret⟩, hne⟩, hzero⟩, hops⟩, halu⟩, hkey⟩, hmisc⟩ := h
  exact ⟨hcls, hret, hne, hzero, hops, halu, hkey, hmisc⟩

/-- A word whose top nibble is an instruction's is no exact word: the order of R94's first two steps decides
nothing. -/
theorem decode_of_op {m : OpcodeMap} {strict : Bool} {w : Word} (h : AcceptedMap m) (ho : fieldOp w ∈ opNumbers m) :
    decode m strict w = decodeOp m strict w := by
  have h0 : fieldOp w ≠ 0 := fun e => h.opsNonzero (e ▸ ho)
  rw [decode, if_neg, if_neg]
  · rintro rfl
    exact h0 h.retOp
  · rintro rfl
    exact h0 (by rw [h.clsWord]; rfl)

end Sys2Proof
end

