-- ==== Sys2Proof/Laws/State.lean ====
section
/-! SUPPORT. Laws/State.lean: one lemma per field per update, so that no later proof unfolds a record
update. -/

namespace Sys2Proof.Machine.State

@[simp] theorem setReg_V (s : State) (x : Nibble) (v : Byte) : (s.setReg x v).V = s.V.set x.toNat v := rfl
@[simp] theorem setReg_pc (s : State) (x : Nibble) (v : Byte) : (s.setReg x v).pc = s.pc := rfl
@[simp] theorem setReg_I (s : State) (x : Nibble) (v : Byte) : (s.setReg x v).I = s.I := rfl
@[simp] theorem setReg_stack (s : State) (x : Nibble) (v : Byte) : (s.setReg x v).stack = s.stack := rfl
@[simp] theorem setReg_DT (s : State) (x : Nibble) (v : Byte) : (s.setReg x v).DT = s.DT := rfl
@[simp] theorem setReg_ST (s : State) (x : Nibble) (v : Byte) : (s.setReg x v).ST = s.ST := rfl
@[simp] theorem setReg_mem (s : State) (x : Nibble) (v : Byte) : (s.setReg x v).mem = s.mem := rfl
@[simp] theorem setReg_display (s : State) (x : Nibble) (v : Byte) : (s.setReg x v).display = s.display := rfl
@[simp] theorem setReg_changed (s : State) (x : Nibble) (v : Byte) : (s.setReg x v).changed = s.changed := rfl
@[simp] theorem setReg_halted (s : State) (x : Nibble) (v : Byte) : (s.setReg x v).halted = s.halted := rfl
@[simp] theorem setReg_fault (s : State) (x : Nibble) (v : Byte) : (s.setReg x v).fault = s.fault := rfl
@[simp] theorem setReg_inputs (s : State) (x : Nibble) (v : Byte) : (s.setReg x v).inputs = s.inputs := rfl
@[simp] theorem setReg_cfg (s : State) (x : Nibble) (v : Byte) : (s.setReg x v).cfg = s.cfg := rfl
@[simp] theorem setReg_pending (s : State) (x : Nibble) (v : Byte) : (s.setReg x v).pending = s.pending := rfl
@[simp] theorem setReg_draws (s : State) (x : Nibble) (v : Byte) : (s.setReg x v).draws = s.draws := rfl

@[simp] theorem setPc_V (s : State) (v : Word) : (s.setPc v).V = s.V := rfl
@[simp] theorem setPc_pc (s : State) (v : Word) : (s.setPc v).pc = v := rfl
@[simp] theorem setPc_I (s : State) (v : Word) : (s.setPc v).I = s.I := rfl
@[simp] theorem setPc_stack (s : State) (v : Word) : (s.setPc v).stack = s.stack := rfl
@[simp] theorem setPc_DT (s : State) (v : Word) : (s.setPc v).DT = s.DT := rfl
@[simp] theorem setPc_ST (s : State) (v : Word) : (s.setPc v).ST = s.ST := rfl
@[simp] theorem setPc_mem (s : State) (v : Word) : (s.setPc v).mem = s.mem := rfl
@[simp] theorem setPc_display (s : State) (v : Word) : (s.setPc v).display = s.display := rfl
@[simp] theorem setPc_changed (s : State) (v : Word) : (s.setPc v).changed = s.changed := rfl
@[simp] theorem setPc_halted (s : State) (v : Word) : (s.setPc v).halted = s.halted := rfl
@[simp] theorem setPc_fault (s : State) (v : Word) : (s.setPc v).fault = s.fault := rfl
@[simp] theorem setPc_inputs (s : State) (v : Word) : (s.setPc v).inputs = s.inputs := rfl
@[simp] theorem setPc_cfg (s : State) (v : Word) : (s.setPc v).cfg = s.cfg := rfl
@[simp] theorem setPc_pending (s : State) (v : Word) : (s.setPc v).pending = s.pending := rfl
@[simp] theorem setPc_draws (s : State) (v : Word) : (s.setPc v).draws = s.draws := rfl

@[simp] theorem setI_V (s : State) (v : Word) : (s.setI v).V = s.V := rfl
@[simp] theorem setI_pc (s : State) (v : Word) : (s.setI v).pc = s.pc := rfl
@[simp] theorem setI_I (s : State) (v : Word) : (s.setI v).I = v := rfl
@[simp] theorem setI_stack (s : State) (v : Word) : (s.setI v).stack = s.stack := rfl
@[simp] theorem setI_DT (s : State) (v : Word) : (s.setI v).DT = s.DT := rfl
@[simp] theorem setI_ST (s : State) (v : Word) : (s.setI v).ST = s.ST := rfl
@[simp] theorem setI_mem (s : State) (v : Word) : (s.setI v).mem = s.mem := rfl
@[simp] theorem setI_display (s : State) (v : Word) : (s.setI v).display = s.display := rfl
@[simp] theorem setI_changed (s : State) (v : Word) : (s.setI v).changed = s.changed := rfl
@[simp] theorem setI_halted (s : State) (v : Word) : (s.setI v).halted = s.halted := rfl
@[simp] theorem setI_fault (s : State) (v : Word) : (s.setI v).fault = s.fault := rfl
@[simp] theorem setI_inputs (s : State) (v : Word) : (s.setI v).inputs = s.inputs := rfl
@[simp] theorem setI_cfg (s : State) (v : Word) : (s.setI v).cfg = s.cfg := rfl
@[simp] theorem setI_pending (s : State) (v : Word) : (s.setI v).pending = s.pending := rfl
@[simp] theorem setI_draws (s : State) (v : Word) : (s.setI v).draws = s.draws := rfl

@[simp] theorem setDT_V (s : State) (v : Byte) : (s.setDT v).V = s.V := rfl
@[simp] theorem setDT_pc (s : State) (v : Byte) : (s.setDT v).pc = s.pc := rfl
@[simp] theorem setDT_I (s : State) (v : Byte) : (s.setDT v).I = s.I := rfl
@[simp] theorem setDT_stack (s : State) (v : Byte) : (s.setDT v).stack = s.stack := rfl
@[simp] theorem setDT_DT (s : State) (v : Byte) : (s.setDT v).DT = v := rfl
@[simp] theorem setDT_ST (s : State) (v : Byte) : (s.setDT v).ST = s.ST := rfl
@[simp] theorem setDT_mem (s : State) (v : Byte) : (s.setDT v).mem = s.mem := rfl
@[simp] theorem setDT_display (s : State) (v : Byte) : (s.setDT v).display = s.display := rfl
@[simp] theorem setDT_changed (s : State) (v : Byte) : (s.setDT v).changed = s.changed := rfl
@[simp] theorem setDT_halted (s : State) (v : Byte) : (s.setDT v).halted = s.halted := rfl
@[simp] theorem setDT_fault (s : State) (v : Byte) : (s.setDT v).fault = s.fault := rfl
@[simp] theorem setDT_inputs (s : State) (v : Byte) : (s.setDT v).inputs = s.inputs := rfl
@[simp] theorem setDT_cfg (s : State) (v : Byte) : (s.setDT v).cfg = s.cfg := rfl
@[simp] theorem setDT_pending (s : State) (v : Byte) : (s.setDT v).pending = s.pending := rfl
@[simp] theorem setDT_draws (s : State) (v : Byte) : (s.setDT v).draws = s.draws := rfl

@[simp] theorem setST_V (s : State) (v : Byte) : (s.setST v).V = s.V := rfl
@[simp] theorem setST_pc (s : State) (v : Byte) : (s.setST v).pc = s.pc := rfl
@[simp] theorem setST_I (s : State) (v : Byte) : (s.setST v).I = s.I := rfl
@[simp] theorem setST_stack (s : State) (v : Byte) : (s.setST v).stack = s.stack := rfl
@[simp] theorem setST_DT (s : State) (v : Byte) : (s.setST v).DT = s.DT := rfl
@[simp] theorem setST_ST (s : State) (v : Byte) : (s.setST v).ST = v := rfl
@[simp] theorem setST_mem (s : State) (v : Byte) : (s.setST v).mem = s.mem := rfl
@[simp] theorem setST_display (s : State) (v : Byte) : (s.setST v).display = s.display := rfl
@[simp] theorem setST_changed (s : State) (v : Byte) : (s.setST v).changed = s.changed := rfl
@[simp] theorem setST_halted (s : State) (v : Byte) : (s.setST v).halted = s.halted := rfl
@[simp] theorem setST_fault (s : State) (v : Byte) : (s.setST v).fault = s.fault := rfl
@[simp] theorem setST_inputs (s : State) (v : Byte) : (s.setST v).inputs = s.inputs := rfl
@[simp] theorem setST_cfg (s : State) (v : Byte) : (s.setST v).cfg = s.cfg := rfl
@[simp] theorem setST_pending (s : State) (v : Byte) : (s.setST v).pending = s.pending := rfl
@[simp] theorem setST_draws (s : State) (v : Byte) : (s.setST v).draws = s.draws := rfl

@[simp] theorem setStack_V (s : State) (l : List Word) : (s.setStack l).V = s.V := rfl
@[simp] theorem setStack_pc (s : State) (l : List Word) : (s.setStack l).pc = s.pc := rfl
@[simp] theorem setStack_I (s : State) (l : List Word) : (s.setStack l).I = s.I := rfl
@[simp] theorem setStack_stack (s : State) (l : List Word) : (s.setStack l).stack = l := rfl
@[simp] theorem setStack_DT (s : State) (l : List Word) : (s.setStack l).DT = s.DT := rfl
@[simp] theorem setStack_ST (s : State) (l : List Word) : (s.setStack l).ST = s.ST := rfl
@[simp] theorem setStack_mem (s : State) (l : List Word) : (s.setStack l).mem = s.mem := rfl
@[simp] theorem setStack_display (s : State) (l : List Word) : (s.setStack l).display = s.display := rfl
@[simp] theorem setStack_changed (s : State) (l : List Word) : (s.setStack l).changed = s.changed := rfl
@[simp] theorem setStack_halted (s : State) (l : List Word) : (s.setStack l).halted = s.halted := rfl
@[simp] theorem setStack_fault (s : State) (l : List Word) : (s.setStack l).fault = s.fault := rfl
@[simp] theorem setStack_inputs (s : State) (l : List Word) : (s.setStack l).inputs = s.inputs := rfl
@[simp] theorem setStack_cfg (s : State) (l : List Word) : (s.setStack l).cfg = s.cfg := rfl
@[simp] theorem setStack_pending (s : State) (l : List Word) : (s.setStack l).pending = s.pending := rfl
@[simp] theorem setStack_draws (s : State) (l : List Word) : (s.setStack l).draws = s.draws := rfl

@[simp] theorem setByte_V (s : State) (a : Nat) (v : Byte) : (s.setByte a v).V = s.V := rfl
@[simp] theorem setByte_pc (s : State) (a : Nat) (v : Byte) : (s.setByte a v).pc = s.pc := rfl
@[simp] theorem setByte_I (s : State) (a : Nat) (v : Byte) : (s.setByte a v).I = s.I := rfl
@[simp] theorem setByte_stack (s : State) (a : Nat) (v : Byte) : (s.setByte a v).stack = s.stack := rfl
@[simp] theorem setByte_DT (s : State) (a : Nat) (v : Byte) : (s.setByte a v).DT = s.DT := rfl
@[simp] theorem setByte_ST (s : State) (a : Nat) (v : Byte) : (s.setByte a v).ST = s.ST := rfl
@[simp] theorem setByte_mem (s : State) (a : Nat) (v : Byte) : (s.setByte a v).mem = Memory.poke (background s.cfg) s.mem a v := rfl
@[simp] theorem setByte_display (s : State) (a : Nat) (v : Byte) : (s.setByte a v).display = s.display := rfl
@[simp] theorem setByte_changed (s : State) (a : Nat) (v : Byte) : (s.setByte a v).changed = s.changed := rfl
@[simp] theorem setByte_halted (s : State) (a : Nat) (v : Byte) : (s.setByte a v).halted = s.halted := rfl
@[simp] theorem setByte_fault (s : State) (a : Nat) (v : Byte) : (s.setByte a v).fault = s.fault := rfl
@[simp] theorem setByte_inputs (s : State) (a : Nat) (v : Byte) : (s.setByte a v).inputs = s.inputs := rfl
@[simp] theorem setByte_cfg (s : State) (a : Nat) (v : Byte) : (s.setByte a v).cfg = s.cfg := rfl
@[simp] theorem setByte_pending (s : State) (a : Nat) (v : Byte) : (s.setByte a v).pending = s.pending := rfl
@[simp] theorem setByte_draws (s : State) (a : Nat) (v : Byte) : (s.setByte a v).draws = s.draws := rfl

@[simp] theorem setDisplay_V (s : State) (d : Display) (b : Bool) : (s.setDisplay d b).V = s.V := rfl
@[simp] theorem setDisplay_pc (s : State) (d : Display) (b : Bool) : (s.setDisplay d b).pc = s.pc := rfl
@[simp] theorem setDisplay_I (s : State) (d : Display) (b : Bool) : (s.setDisplay d b).I = s.I := rfl
@[simp] theorem setDisplay_stack (s : State) (d : Display) (b : Bool) : (s.setDisplay d b).stack = s.stack := rfl
@[simp] theorem setDisplay_DT (s : State) (d : Display) (b : Bool) : (s.setDisplay d b).DT = s.DT := rfl
@[simp] theorem setDisplay_ST (s : State) (d : Display) (b : Bool) : (s.setDisplay d b).ST = s.ST := rfl
@[simp] theorem setDisplay_mem (s : State) (d : Display) (b : Bool) : (s.setDisplay d b).mem = s.mem := rfl
@[simp] theorem setDisplay_display (s : State) (d : Display) (b : Bool) : (s.setDisplay d b).display = d := rfl
@[simp] theorem setDisplay_changed (s : State) (d : Display) (b : Bool) : (s.setDisplay d b).changed = b := rfl
@[simp] theorem setDisplay_halted (s : State) (d : Display) (b : Bool) : (s.setDisplay d b).halted = s.halted := rfl
@[simp] theorem setDisplay_fault (s : State) (d : Display) (b : Bool) : (s.setDisplay d b).fault = s.fault := rfl
@[simp] theorem setDisplay_inputs (s : State) (d : Display) (b : Bool) : (s.setDisplay d b).inputs = s.inputs := rfl
@[simp] theorem setDisplay_cfg (s : State) (d : Display) (b : Bool) : (s.setDisplay d b).cfg = s.cfg := rfl
@[simp] theorem setDisplay_pending (s : State) (d : Display) (b : Bool) : (s.setDisplay d b).pending = s.pending := rfl
@[simp] theorem setDisplay_draws (s : State) (d : Display) (b : Bool) : (s.setDisplay d b).draws = s.draws := rfl

@[simp] theorem raise_V (s : State) (c : Cause) (a : Word) (w : Option Word) : (s.raise c a w).V = s.V := rfl
@[simp] theorem raise_pc (s : State) (c : Cause) (a : Word) (w : Option Word) : (s.raise c a w).pc = Config.freePc s.draws := rfl
@[simp] theorem raise_I (s : State) (c : Cause) (a : Word) (w : Option Word) : (s.raise c a w).I = s.I := rfl
@[simp] theorem raise_stack (s : State) (c : Cause) (a : Word) (w : Option Word) : (s.raise c a w).stack = s.stack := rfl
@[simp] theorem raise_DT (s : State) (c : Cause) (a : Word) (w : Option Word) : (s.raise c a w).DT = s.DT := rfl
@[simp] theorem raise_ST (s : State) (c : Cause) (a : Word) (w : Option Word) : (s.raise c a w).ST = s.ST := rfl
@[simp] theorem raise_mem (s : State) (c : Cause) (a : Word) (w : Option Word) : (s.raise c a w).mem = s.mem := rfl
@[simp] theorem raise_display (s : State) (c : Cause) (a : Word) (w : Option Word) : (s.raise c a w).display = s.display := rfl
@[simp] theorem raise_changed (s : State) (c : Cause) (a : Word) (w : Option Word) : (s.raise c a w).changed = s.changed := rfl
@[simp] theorem raise_halted (s : State) (c : Cause) (a : Word) (w : Option Word) : (s.raise c a w).halted = true := rfl
@[simp] theorem raise_fault (s : State) (c : Cause) (a : Word) (w : Option Word) : (s.raise c a w).fault = some ⟨c, a, w⟩ := rfl
@[simp] theorem raise_inputs (s : State) (c : Cause) (a : Word) (w : Option Word) : (s.raise c a w).inputs = s.inputs := rfl
@[simp] theorem raise_cfg (s : State) (c : Cause) (a : Word) (w : Option Word) : (s.raise c a w).cfg = s.cfg := rfl
@[simp] theorem raise_pending (s : State) (c : Cause) (a : Word) (w : Option Word) : (s.raise c a w).pending = s.pending := rfl
@[simp] theorem raise_draws (s : State) (c : Cause) (a : Word) (w : Option Word) : (s.raise c a w).draws = s.draws + 1 := rfl

@[simp] theorem raiseIn_V (s : State) (i : Instr) (c : Cause) : (s.raiseIn i c).V = s.V := rfl
@[simp] theorem raiseIn_pc (s : State) (i : Instr) (c : Cause) : (s.raiseIn i c).pc = Config.freePc s.draws := rfl
@[simp] theorem raiseIn_I (s : State) (i : Instr) (c : Cause) : (s.raiseIn i c).I = s.I := rfl
@[simp] theorem raiseIn_stack (s : State) (i : Instr) (c : Cause) : (s.raiseIn i c).stack = s.stack := rfl
@[simp] theorem raiseIn_DT (s : State) (i : Instr) (c : Cause) : (s.raiseIn i c).DT = s.DT := rfl
@[simp] theorem raiseIn_ST (s : State) (i : Instr) (c : Cause) : (s.raiseIn i c).ST = s.ST := rfl
@[simp] theorem raiseIn_mem (s : State) (i : Instr) (c : Cause) : (s.raiseIn i c).mem = s.mem := rfl
@[simp] theorem raiseIn_display (s : State) (i : Instr) (c : Cause) : (s.raiseIn i c).display = s.display := rfl
@[simp] theorem raiseIn_changed (s : State) (i : Instr) (c : Cause) : (s.raiseIn i c).changed = s.changed := rfl
@[simp] theorem raiseIn_halted (s : State) (i : Instr) (c : Cause) : (s.raiseIn i c).halted = true := rfl
@[simp] theorem raiseIn_fault (s : State) (i : Instr) (c : Cause) : (s.raiseIn i c).fault = some ⟨c, s.pc - 2, some (encode s.cfg.opcodeMap i)⟩ := rfl
@[simp] theorem raiseIn_inputs (s : State) (i : Instr) (c : Cause) : (s.raiseIn i c).inputs = s.inputs := rfl
@[simp] theorem raiseIn_cfg (s : State) (i : Instr) (c : Cause) : (s.raiseIn i c).cfg = s.cfg := rfl
@[simp] theorem raiseIn_pending (s : State) (i : Instr) (c : Cause) : (s.raiseIn i c).pending = s.pending := rfl
@[simp] theorem raiseIn_draws (s : State) (i : Instr) (c : Cause) : (s.raiseIn i c).draws = s.draws + 1 := rfl

@[simp] theorem skip_pc (s : State) (b : Bool) : (s.skip b).pc = if b then s.pc + 2 else s.pc := by
  cases b <;> rfl
@[simp] theorem skip_V (s : State) (b : Bool) : (s.skip b).V = s.V := by cases b <;> rfl
@[simp] theorem skip_I (s : State) (b : Bool) : (s.skip b).I = s.I := by cases b <;> rfl
@[simp] theorem skip_stack (s : State) (b : Bool) : (s.skip b).stack = s.stack := by cases b <;> rfl
@[simp] theorem skip_DT (s : State) (b : Bool) : (s.skip b).DT = s.DT := by cases b <;> rfl
@[simp] theorem skip_ST (s : State) (b : Bool) : (s.skip b).ST = s.ST := by cases b <;> rfl
@[simp] theorem skip_mem (s : State) (b : Bool) : (s.skip b).mem = s.mem := by cases b <;> rfl
@[simp] theorem skip_display (s : State) (b : Bool) : (s.skip b).display = s.display := by cases b <;> rfl
@[simp] theorem skip_changed (s : State) (b : Bool) : (s.skip b).changed = s.changed := by cases b <;> rfl
@[simp] theorem skip_halted (s : State) (b : Bool) : (s.skip b).halted = s.halted := by cases b <;> rfl
@[simp] theorem skip_fault (s : State) (b : Bool) : (s.skip b).fault = s.fault := by cases b <;> rfl
@[simp] theorem skip_inputs (s : State) (b : Bool) : (s.skip b).inputs = s.inputs := by cases b <;> rfl
@[simp] theorem skip_cfg (s : State) (b : Bool) : (s.skip b).cfg = s.cfg := by cases b <;> rfl
@[simp] theorem skip_pending (s : State) (b : Bool) : (s.skip b).pending = s.pending := by cases b <;> rfl
@[simp] theorem skip_draws (s : State) (b : Bool) : (s.skip b).draws = s.draws := by cases b <;> rfl

@[simp] theorem setVF_pc (s : State) (g : Bool) : (s.setVF g).pc = s.pc := rfl
@[simp] theorem setVF_I (s : State) (g : Bool) : (s.setVF g).I = s.I := rfl
@[simp] theorem setVF_stack (s : State) (g : Bool) : (s.setVF g).stack = s.stack := rfl
@[simp] theorem setVF_DT (s : State) (g : Bool) : (s.setVF g).DT = s.DT := rfl
@[simp] theorem setVF_ST (s : State) (g : Bool) : (s.setVF g).ST = s.ST := rfl
@[simp] theorem setVF_mem (s : State) (g : Bool) : (s.setVF g).mem = s.mem := rfl
@[simp] theorem setVF_display (s : State) (g : Bool) : (s.setVF g).display = s.display := rfl
@[simp] theorem setVF_changed (s : State) (g : Bool) : (s.setVF g).changed = s.changed := rfl
@[simp] theorem setVF_halted (s : State) (g : Bool) : (s.setVF g).halted = s.halted := rfl
@[simp] theorem setVF_fault (s : State) (g : Bool) : (s.setVF g).fault = s.fault := rfl
@[simp] theorem setVF_inputs (s : State) (g : Bool) : (s.setVF g).inputs = s.inputs := rfl
@[simp] theorem setVF_cfg (s : State) (g : Bool) : (s.setVF g).cfg = s.cfg := rfl
@[simp] theorem setVF_pending (s : State) (g : Bool) : (s.setVF g).pending = s.pending := rfl
@[simp] theorem setVF_draws (s : State) (g : Bool) : (s.setVF g).draws = s.draws := rfl

@[simp] theorem writeWithFlag_pc (s : State) (x : Nibble) (v : Byte) (g : Bool) : (s.writeWithFlag x v g).pc = s.pc := rfl
@[simp] theorem writeWithFlag_I (s : State) (x : Nibble) (v : Byte) (g : Bool) : (s.writeWithFlag x v g).I = s.I := rfl
@[simp] theorem writeWithFlag_stack (s : State) (x : Nibble) (v : Byte) (g : Bool) : (s.writeWithFlag x v g).stack = s.stack := rfl
@[simp] theorem writeWithFlag_DT (s : State) (x : Nibble) (v : Byte) (g : Bool) : (s.writeWithFlag x v g).DT = s.DT := rfl
@[simp] theorem writeWithFlag_ST (s : State) (x : Nibble) (v : Byte) (g : Bool) : (s.writeWithFlag x v g).ST = s.ST := rfl
@[simp] theorem writeWithFlag_mem (s : State) (x : Nibble) (v : Byte) (g : Bool) : (s.writeWithFlag x v g).mem = s.mem := rfl
@[simp] theorem writeWithFlag_display (s : State) (x : Nibble) (v : Byte) (g : Bool) : (s.writeWithFlag x v g).display = s.display := rfl
@[simp] theorem writeWithFlag_changed (s : State) (x : Nibble) (v : Byte) (g : Bool) : (s.writeWithFlag x v g).changed = s.changed := rfl
@[simp] theorem writeWithFlag_halted (s : State) (x : Nibble) (v : Byte) (g : Bool) : (s.writeWithFlag x v g).halted = s.halted := rfl
@[simp] theorem writeWithFlag_fault (s : State) (x : Nibble) (v : Byte) (g : Bool) : (s.writeWithFlag x v g).fault = s.fault := rfl
@[simp] theorem writeWithFlag_inputs (s : State) (x : Nibble) (v : Byte) (g : Bool) : (s.writeWithFlag x v g).inputs = s.inputs := rfl
@[simp] theorem writeWithFlag_cfg (s : State) (x : Nibble) (v : Byte) (g : Bool) : (s.writeWithFlag x v g).cfg = s.cfg := rfl
@[simp] theorem writeWithFlag_pending (s : State) (x : Nibble) (v : Byte) (g : Bool) : (s.writeWithFlag x v g).pending = s.pending := rfl
@[simp] theorem writeWithFlag_draws (s : State) (x : Nibble) (v : Byte) (g : Bool) : (s.writeWithFlag x v g).draws = s.draws := rfl

end Sys2Proof.Machine.State
end

