-- ==== Sys2Proof/Laws/Memory.lean ====
section
/-! SUPPORT. Laws/Memory.lean: read after write, every other byte left alone, and the canonical form kept. -/

namespace Sys2Proof.Machine

variable {bg : Nat → Byte}

theorem Memory.peek_of_forall_ne {m : Memory} {a : Nat} (h : ∀ c ∈ m, c.1 ≠ a) : Memory.peek bg m a = bg a := by
  induction m with
  | nil => rfl
  | cons c m ih =>
    rw [Memory.peek, if_neg fun e => h c (by simp) e.symm]
    exact ih fun d hd => h d (by simp [hd])

/-- A write leaves every other byte alone, whatever the list. -/
theorem Memory.peek_poke_of_ne (m : Memory) {a b : Nat} (v : Byte) (h : b ≠ a) :
    Memory.peek bg (Memory.poke bg m a v) b = Memory.peek bg m b := by
  induction m with
  | nil => by_cases hv : v = bg a <;> simp [Memory.poke, Memory.peek, hv, h]
  | cons c m ih =>
    rw [Memory.poke]
    split
    · split <;> simp [Memory.peek, h]
    · split
      · next e => split <;> simp [Memory.peek, h, ← e]
      · simp [Memory.peek, ih]

/-- A read after a write to the same place gives the value written. -/
theorem Memory.peek_poke_self {m : Memory} (hw : Memory.wf bg m) (a : Nat) (v : Byte) :
    Memory.peek bg (Memory.poke bg m a v) a = v := by
  induction m with
  | nil => by_cases hv : v = bg a <;> simp [Memory.poke, Memory.peek, hv]
  | cons c m ih =>
    obtain ⟨hs, hc⟩ := hw
    rw [List.pairwise_cons] at hs
    have hw' : Memory.wf bg m := ⟨hs.2, fun d hd => hc d (by simp [hd])⟩
    rw [Memory.poke]
    split
    · next hlt =>
      split
      · next hv =>
        rw [hv]
        refine Memory.peek_of_forall_ne fun d hd => ?_
        rcases List.mem_cons.mp hd with rfl | hd
        · omega
        · have := hs.1 d hd; omega
      · simp [Memory.peek]
    · split
      · next e =>
        split
        · next hv =>
          rw [hv]
          exact Memory.peek_of_forall_ne fun d hd => by have := hs.1 d hd; omega
        · simp [Memory.peek]
      · next hne => simp [Memory.peek, hne, ih hw']

theorem Memory.mem_poke {m : Memory} {a : Nat} {v : Byte} {d : Host.Cell} (h : d ∈ Memory.poke bg m a v) :
    (d = (a, v) ∧ v ≠ bg a) ∨ d ∈ m := by
  induction m with
  | nil =>
    rw [Memory.poke] at h
    split at h
    · simp at h
    · exact .inl ⟨by simpa using h, ‹_›⟩
  | cons c m ih =>
    rw [Memory.poke] at h
    split at h
    · split at h
      · exact .inr h
      · rcases List.mem_cons.mp h with rfl | h
        · exact .inl ⟨rfl, ‹_›⟩
        · exact .inr h
    · split at h
      · split at h
        · exact .inr (by simp [h])
        · rcases List.mem_cons.mp h with rfl | h
          · exact .inl ⟨rfl, ‹_›⟩
          · exact .inr (by simp [h])
      · rcases List.mem_cons.mp h with rfl | h
        · exact .inr (by simp)
        · exact (ih h).imp id fun h => by simp [h]

/-- A write inside memory keeps the canonical form. -/
theorem Memory.poke_wf {m : Memory} (hw : Memory.wf bg m) {a : Nat} (ha : a < memSize) (v : Byte) :
    Memory.wf bg (Memory.poke bg m a v) := by
  refine ⟨?_, fun d hd => ?_⟩
  · obtain ⟨hs, -⟩ := hw
    induction m with
    | nil => rw [Memory.poke]; split <;> simp
    | cons c m ih =>
      have hs' := List.pairwise_cons.mp hs
      rw [Memory.poke]
      split
      · next hlt =>
        split
        · exact hs
        · refine List.pairwise_cons.mpr ⟨fun d hd => ?_, hs⟩
          rcases List.mem_cons.mp hd with rfl | hd
          · exact hlt
          · exact Nat.lt_trans hlt (hs'.1 d hd)
      · split
        · next e =>
          split
          · exact hs'.2
          · exact List.pairwise_cons.mpr ⟨fun d hd => e ▸ hs'.1 d hd, hs'.2⟩
        · next hn hne =>
          refine List.pairwise_cons.mpr ⟨fun d hd => ?_, ih hs'.2⟩
          rcases Memory.mem_poke hd with ⟨rfl, -⟩ | hd
          · show c.1 < a; omega
          · exact hs'.1 d hd
  · rcases Memory.mem_poke hd with ⟨rfl, hv⟩ | hd
    · exact ⟨ha, hv⟩
    · exact hw.2 d hd

theorem Memory.mem_ofImage {a : Nat} {bs : List Byte} {d : Host.Cell} (h : d ∈ Memory.ofImage bg a bs) :
    a ≤ d.1 ∧ d.1 < a + bs.length ∧ d.2 ≠ bg d.1 := by
  induction bs generalizing a with
  | nil => simp [Memory.ofImage] at h
  | cons b bs ih =>
    rw [Memory.ofImage] at h
    simp only [List.length_cons]
    split at h
    · obtain ⟨h1, h2, h3⟩ := ih h; exact ⟨by omega, by omega, h3⟩
    · rcases List.mem_cons.mp h with rfl | h
      · exact ⟨by simp, by simp, ‹_›⟩
      · obtain ⟨h1, h2, h3⟩ := ih h; exact ⟨by omega, by omega, h3⟩

/-- An image laid inside memory is in canonical form. -/
theorem Memory.ofImage_wf {a : Nat} {bs : List Byte} (h : a + bs.length ≤ memSize) :
    Memory.wf bg (Memory.ofImage bg a bs) := by
  refine ⟨?_, fun d hd => ?_⟩
  · clear h
    induction bs generalizing a with
    | nil => simp [Memory.ofImage]
    | cons b bs ih =>
      rw [Memory.ofImage]
      split
      · exact ih
      · exact List.pairwise_cons.mpr ⟨fun d hd => (Memory.mem_ofImage hd).1, ih⟩
  · obtain ⟨-, h2, h3⟩ := Memory.mem_ofImage hd
    exact ⟨by omega, h3⟩

/-- Reading an image back: its bytes where it lies, the background elsewhere. -/
theorem Memory.peek_ofImage (a : Nat) (bs : List Byte) (k : Nat) :
    Memory.peek bg (Memory.ofImage bg a bs) k =
      if a ≤ k then bs[k - a]?.getD (bg k) else bg k := by
  induction bs generalizing a with
  | nil => simp [Memory.ofImage, Memory.peek]
  | cons b bs ih =>
    have key : Memory.peek bg (Memory.ofImage bg a (b :: bs)) k =
        if k = a then b else Memory.peek bg (Memory.ofImage bg (a + 1) bs) k := by
      rw [Memory.ofImage]
      split
      · next hb =>
        split
        · next e =>
          subst e
          rw [hb]
          exact Memory.peek_of_forall_ne fun d hd => by have := (Memory.mem_ofImage hd).1; omega
        · rfl
      · rw [Memory.peek]
    rw [key, ih]
    split
    · next e => simp [e]
    · next hne =>
      by_cases hle : a + 1 ≤ k
      · have : k - a = (k - (a + 1)) + 1 := by omega
        simp [hle, this, show a ≤ k by omega]
      · simp [hle, show ¬a ≤ k by omega]

/-! ### The same of a state -/

theorem State.byteAt_congr {s t : State} (hc : t.cfg = s.cfg) (hm : t.mem = s.mem) (a : Nat) :
    t.byteAt a = s.byteAt a := by
  rw [State.byteAt, State.byteAt, hc, hm]

theorem State.byteAt_setByte_of_ne (s : State) {a b : Nat} (v : Byte) (h : b ≠ a) :
    (s.setByte a v).byteAt b = s.byteAt b :=
  Memory.peek_poke_of_ne s.mem v h

theorem State.byteAt_setByte_self {s : State} (hw : Memory.wf (background s.cfg) s.mem) (a : Nat) (v : Byte) :
    (s.setByte a v).byteAt a = v :=
  Memory.peek_poke_self hw a v

theorem State.setByte_wf {s : State} (hw : Memory.wf (background s.cfg) s.mem) {a : Nat} (ha : a < memSize)
    (v : Byte) : Memory.wf (background (s.setByte a v).cfg) (s.setByte a v).mem :=
  Memory.poke_wf hw ha v

end Sys2Proof.Machine
end

