-- ==== Sys2Proof/Laws/Ops.lean ====
section
/-! SUPPORT. Laws/Ops.lean: what each shared operation does, said once: registers, flags, skips, the fatal
conditions and the block loops. -/

namespace Sys2Proof.Machine.State

/-! ### Reads of a register and of a byte after each update -/

@[simp] theorem reg_setReg_self (s : State) (x : Nibble) (v : Byte) : (s.setReg x v).reg x = v := by
  simp [reg]

theorem reg_setReg_of_ne (s : State) {x y : Nibble} (v : Byte) (h : y ≠ x) :
    (s.setReg x v).reg y = s.reg y := by
  have : x.toNat ≠ y.toNat := fun e => h (BitVec.eq_of_toNat_eq e.symm)
  simp [reg, Vector.getElem_set_ne _ _ this]

theorem reg_setReg (s : State) (x y : Nibble) (v : Byte) :
    (s.setReg x v).reg y = if y = x then v else s.reg y := by
  split
  · next e => rw [e, reg_setReg_self]
  · next h => exact reg_setReg_of_ne s v h

theorem reg_congr {s t : State} (h : t.V = s.V) (x : Nibble) : t.reg x = s.reg x := by
  simp only [reg, h]

@[simp] theorem reg_setPc (s : State) (v : Word) (y : Nibble) : (s.setPc v).reg y = s.reg y := rfl
@[simp] theorem reg_setI (s : State) (v : Word) (y : Nibble) : (s.setI v).reg y = s.reg y := rfl
@[simp] theorem reg_setDT (s : State) (v : Byte) (y : Nibble) : (s.setDT v).reg y = s.reg y := rfl
@[simp] theorem reg_setST (s : State) (v : Byte) (y : Nibble) : (s.setST v).reg y = s.reg y := rfl
@[simp] theorem reg_setStack (s : State) (l : List Word) (y : Nibble) : (s.setStack l).reg y = s.reg y := rfl
@[simp] theorem reg_setByte (s : State) (a : Nat) (v : Byte) (y : Nibble) : (s.setByte a v).reg y = s.reg y := rfl
@[simp] theorem reg_setDisplay (s : State) (d : Display) (b : Bool) (y : Nibble) : (s.setDisplay d b).reg y = s.reg y := rfl
@[simp] theorem reg_raise (s : State) (c : Cause) (a : Word) (w : Option Word) (y : Nibble) : (s.raise c a w).reg y = s.reg y := rfl
@[simp] theorem reg_raiseIn (s : State) (i : Instr) (c : Cause) (y : Nibble) : (s.raiseIn i c).reg y = s.reg y := rfl
@[simp] theorem reg_skip (s : State) (b : Bool) (y : Nibble) : (s.skip b).reg y = s.reg y := by cases b <;> rfl

@[simp] theorem byteAt_setPc (s : State) (v : Word) (k : Nat) : (s.setPc v).byteAt k = s.byteAt k := rfl
@[simp] theorem byteAt_setI (s : State) (v : Word) (k : Nat) : (s.setI v).byteAt k = s.byteAt k := rfl
@[simp] theorem byteAt_setDT (s : State) (v : Byte) (k : Nat) : (s.setDT v).byteAt k = s.byteAt k := rfl
@[simp] theorem byteAt_setST (s : State) (v : Byte) (k : Nat) : (s.setST v).byteAt k = s.byteAt k := rfl
@[simp] theorem byteAt_setStack (s : State) (l : List Word) (k : Nat) : (s.setStack l).byteAt k = s.byteAt k := rfl
@[simp] theorem byteAt_setDisplay (s : State) (d : Display) (b : Bool) (k : Nat) : (s.setDisplay d b).byteAt k = s.byteAt k := rfl
@[simp] theorem byteAt_raise (s : State) (c : Cause) (a : Word) (w : Option Word) (k : Nat) : (s.raise c a w).byteAt k = s.byteAt k := rfl
@[simp] theorem byteAt_raiseIn (s : State) (i : Instr) (c : Cause) (k : Nat) : (s.raiseIn i c).byteAt k = s.byteAt k := rfl
@[simp] theorem byteAt_setReg (s : State) (x : Nibble) (v : Byte) (k : Nat) : (s.setReg x v).byteAt k = s.byteAt k := rfl
@[simp] theorem byteAt_setVF (s : State) (g : Bool) (k : Nat) : (s.setVF g).byteAt k = s.byteAt k := rfl
@[simp] theorem byteAt_writeWithFlag (s : State) (x : Nibble) (v : Byte) (g : Bool) (k : Nat) : (s.writeWithFlag x v g).byteAt k = s.byteAt k := rfl
@[simp] theorem byteAt_skip (s : State) (b : Bool) (k : Nat) : (s.skip b).byteAt k = s.byteAt k := by cases b <;> rfl

/-! ### Flags (R22, R152) -/

@[simp] theorem reg_setVF_self (s : State) (g : Bool) : (s.setVF g).reg regVF = flagByte g :=
  reg_setReg_self s regVF (flagByte g)

theorem reg_setVF_of_ne (s : State) (g : Bool) {y : Nibble} (h : y ≠ regVF) : (s.setVF g).reg y = s.reg y :=
  reg_setReg_of_ne s (flagByte g) h

/-- The write order of R152: VF holds the flag, whatever `x` is; another `x` holds the result; every other
register is unchanged. -/
theorem reg_writeWithFlag (s : State) (x y : Nibble) (v : Byte) (g : Bool) :
    (s.writeWithFlag x v g).reg y = if y = regVF then flagByte g else if y = x then v else s.reg y := by
  rw [writeWithFlag]
  split
  · next e => rw [e, reg_setVF_self]
  · next h => rw [reg_setVF_of_ne _ g h, reg_setReg]

/-! ### Skips and fatal conditions -/

/-- A skip changes `pc` only (R130). -/
theorem skip_eq (s : State) (b : Bool) : s.skip b = { s with pc := if b then s.pc + 2 else s.pc } := by
  cases b <;> rfl

/-- Taking a fatal condition writes the record and halts; `pc` and the draw counter are all else that
changes (R245, R249). -/
theorem raise_eq (s : State) (c : Cause) (a : Word) (w : Option Word) :
    s.raise c a w = { s with fault := some ⟨c, a, w⟩, halted := true, pc := (s.raise c a w).pc, draws := s.draws + 1 } :=
  rfl

/-! ### The block loops (R184, R185, R249) -/

/-- A block store runs to its end exactly when its last address is in range. -/
theorem blockStore_complete (B left i : Nat) (s : State) :
    (blockStore B left i s).2 = decide (left = 0 ∨ B + i + left ≤ 4096) := by
  induction left generalizing i s with
  | zero => simp [blockStore]
  | succ n ih =>
    rw [blockStore, memWrite]
    by_cases h : B + i > 4095
    · simp [h, show ¬B + i + (n + 1) ≤ 4096 by omega]
    · simp only [if_neg h, ih, decide_eq_decide]
      omega

/-- A block store writes memory only. -/
theorem blockStore_eq (B left i : Nat) (s : State) :
    (blockStore B left i s).1 = { s with mem := (blockStore B left i s).1.mem } := by
  induction left generalizing i s with
  | zero => rfl
  | succ n ih =>
    rw [blockStore, memWrite]
    by_cases h : B + i > 4095
    · simp [h]
    · simp only [if_neg h]
      rw [ih]
      rfl

/-- A block store leaves every byte outside its range alone. -/
theorem byteAt_blockStore_of_out (B left i : Nat) (s : State) {a : Nat}
    (h : a < B + i ∨ B + i + left ≤ a ∨ 4095 < a) : (blockStore B left i s).1.byteAt a = s.byteAt a := by
  induction left generalizing i s with
  | zero => rfl
  | succ n ih =>
    rw [blockStore, memWrite]
    by_cases h' : B + i > 4095
    · simp [h']
    · simp only [if_neg h']
      rw [ih (i + 1) _ (by omega), byteAt_setByte_of_ne _ _ (by omega)]

/-- A block store keeps the canonical form. -/
theorem blockStore_wf (B left i : Nat) (s : State) (hw : Memory.wf (background s.cfg) s.mem) :
    Memory.wf (background s.cfg) (blockStore B left i s).1.mem := by
  induction left generalizing i s with
  | zero => exact hw
  | succ n ih =>
    rw [blockStore, memWrite]
    by_cases h : B + i > 4095
    · simpa [h] using hw
    · simp only [if_neg h]
      exact ih (i + 1) (s.setByte (B + i) _) (setByte_wf hw (by rw [memSize]; omega) _)

/-- The bytes a block store writes: register `i + k` at `B + i + k`, as far as memory reaches. -/
theorem byteAt_blockStore (B left i k : Nat) (s : State) (hw : Memory.wf (background s.cfg) s.mem)
    (hk : k < left) (ha : B + i + k ≤ 4095) :
    (blockStore B left i s).1.byteAt (B + i + k) = s.reg (BitVec.ofNat 4 (i + k)) := by
  induction left generalizing i k s with
  | zero => omega
  | succ n ih =>
    rw [blockStore, memWrite, if_neg (by omega : ¬B + i > 4095)]
    cases k with
    | zero =>
      simp only [Nat.add_zero]
      rw [byteAt_blockStore_of_out _ _ _ _ (by omega), byteAt_setByte_self hw]
    | succ k =>
      have hw' := setByte_wf hw (by rw [memSize]; omega : B + i < memSize) (s.reg (BitVec.ofNat 4 i))
      have := ih (i + 1) k (s.setByte (B + i) (s.reg (BitVec.ofNat 4 i))) hw' (by omega) (by omega)
      rw [show B + i + (k + 1) = B + (i + 1) + k by omega, show i + (k + 1) = i + 1 + k by omega]
      exact this

/-- A block load runs to its end exactly when its last address is in range. -/
theorem blockLoad_complete (B left i : Nat) (s : State) :
    (blockLoad B left i s).2 = decide (left = 0 ∨ B + i + left ≤ 4096) := by
  induction left generalizing i s with
  | zero => simp [blockLoad]
  | succ n ih =>
    rw [blockLoad, memRead]
    by_cases h : B + i > 4095
    · simp [h, show ¬B + i + (n + 1) ≤ 4096 by omega]
    · simp only [if_neg h, ih, decide_eq_decide]
      omega

/-- A block load writes registers only. -/
theorem blockLoad_eq (B left i : Nat) (s : State) :
    (blockLoad B left i s).1 = { s with V := (blockLoad B left i s).1.V } := by
  induction left generalizing i s with
  | zero => rfl
  | succ n ih =>
    rw [blockLoad, memRead]
    by_cases h : B + i > 4095
    · simp [h]
    · simp only [if_neg h]
      rw [ih]
      rfl

/-- A block load leaves every register outside its range alone. -/
theorem reg_blockLoad_of_out (B left i : Nat) (s : State) (hi : i + left ≤ 16) {y : Nibble}
    (h : y.toNat < i ∨ i + left ≤ y.toNat ∨ 4095 < B + y.toNat) :
    (blockLoad B left i s).1.reg y = s.reg y := by
  induction left generalizing i s with
  | zero => rfl
  | succ n ih =>
    rw [blockLoad, memRead]
    by_cases h' : B + i > 4095
    · simp [h']
    · simp only [if_neg h']
      rw [ih (i + 1) _ (by omega) (by omega), reg_setReg_of_ne]
      intro e
      have : y.toNat = i := by rw [e, BitVec.toNat_ofNat]; omega
      omega

/-- The registers a block load writes: the byte at `B + i + k` to register `i + k`, as far as memory
reaches. -/
theorem reg_blockLoad (B left i k : Nat) (s : State) (hi : i + left ≤ 16) (hk : k < left)
    (ha : B + i + k ≤ 4095) :
    (blockLoad B left i s).1.reg (BitVec.ofNat 4 (i + k)) = s.byteAt (B + i + k) := by
  induction left generalizing i k s with
  | zero => omega
  | succ n ih =>
    rw [blockLoad, memRead, if_neg (by omega : ¬B + i > 4095)]
    cases k with
    | zero =>
      simp only [Nat.add_zero]
      rw [reg_blockLoad_of_out _ _ _ _ (by omega) (by left; rw [BitVec.toNat_ofNat]; omega), reg_setReg_self]
    | succ k =>
      rw [show B + i + (k + 1) = B + (i + 1) + k by omega, show i + (k + 1) = i + 1 + k by omega]
      exact ih (i + 1) k _ (by omega) (by omega) (by omega)

end Sys2Proof.Machine.State
end

