-- ==== Sys2Proof/Laws/Draw.lean ====
section
/-! SUPPORT. Laws/Draw.lean: the draw loops of 43_display.md R201 in closed form. -/

namespace Sys2Proof.Machine

theorem Display.pixel_blank (r c : Nat) : Display.blank.pixel r c = false := by
  rw [Display.pixel]
  split <;> simp [Display.blank]

theorem Display.pixel_setPixel (d : Display) (r c : Nat) (v : Bool) (r' c' : Nat) :
    (d.setPixel r c v).pixel r' c' = if r' = r ∧ c' = c ∧ r < 32 ∧ c < 64 then v else d.pixel r' c' := by
  rw [Display.setPixel]
  split
  · next h =>
    rw [Display.pixel, Display.pixel]
    by_cases h' : r' < 32 ∧ c' < 64
    · rw [dif_pos h', dif_pos h']
      by_cases hr : r' = r
      · subst hr
        by_cases hc : c' = c
        · subst hc; simp [h]
        · simp [hc, Vector.getElem_set_ne _ _ (Ne.symm hc)]
      · simp [hr, Vector.getElem_set_ne _ _ (Ne.symm hr)]
    · rw [dif_neg h', dif_neg h', if_neg]
      rintro ⟨rfl, rfl, h1, h2⟩
      exact h' ⟨h1, h2⟩
  · next h =>
    rw [if_neg]
    rintro ⟨-, -, h1, h2⟩
    exact h ⟨h1, h2⟩

/-- Two displays with the same pixels are the same display. -/
theorem Display.ext_pixel {d e : Display} (h : ∀ r c, r < 32 → c < 64 → d.pixel r c = e.pixel r c) : d = e := by
  refine Vector.ext fun r hr => Vector.ext fun c hc => ?_
  have := h r c hr hc
  simpa [Display.pixel, hr, hc] using this

/-- The bits of a sprite byte: bit 7 is the leftmost pixel (R201, R63). -/
theorem spriteBits_getElem? (b : Byte) (k : Nat) :
    (spriteBits b)[k]? = if k < 8 then some (b.getLsbD (7 - k)) else none := by
  rcases k with _ | _ | _ | _ | _ | _ | _ | _ | k <;> simp [spriteBits]

/-- What a loop of the draw has done between `d` and `e`, `hit` being the pixels it toggles: those pixels are
inverted, a set one among them is a collision, any of them marks the display toggled. -/
structure Drew (hit : Nat → Nat → Prop) (d e : Drawing) : Prop where
  inverted : ∀ r c, hit r c → e.display.pixel r c = !d.display.pixel r c
  kept : ∀ r c, ¬hit r c → e.display.pixel r c = d.display.pixel r c
  collides : e.collision = true ↔ d.collision = true ∨ ∃ r c, hit r c ∧ d.display.pixel r c = true
  toggles : e.toggled = true ↔ d.toggled = true ∨ ∃ r c, hit r c

theorem Drew.refl (d : Drawing) : Drew (fun _ _ => False) d d :=
  ⟨fun _ _ h => h.elim, fun _ _ _ => rfl, by simp, by simp⟩

theorem Drew.congr {p q : Nat → Nat → Prop} {d e : Drawing} (h : Drew p d e) (hpq : ∀ r c, p r c ↔ q r c) :
    Drew q d e := by
  have : p = q := funext fun r => funext fun c => propext (hpq r c)
  exact this ▸ h

/-- Two parts of a draw that toggle no pixel in common make one. -/
theorem Drew.trans {p q : Nat → Nat → Prop} {d e f : Drawing} (h : Drew p d e) (h' : Drew q e f)
    (hd : ∀ r c, p r c → ¬q r c) : Drew (fun r c => p r c ∨ q r c) d f where
  inverted r c hc := by
    rcases hc with hp | hq
    · rw [h'.kept r c (hd r c hp), h.inverted r c hp]
    · rw [h'.inverted r c hq, h.kept r c fun hp => hd r c hp hq]
  kept r c hc := by
    rw [h'.kept r c fun hq => hc (.inr hq), h.kept r c fun hp => hc (.inl hp)]
  collides := by
    have key : ∀ r c, q r c → e.display.pixel r c = d.display.pixel r c :=
      fun r c hq => h.kept r c fun hp => hd r c hp hq
    rw [h'.collides, h.collides]
    constructor
    · rintro ((h | ⟨r, c, hp, ht⟩) | ⟨r, c, hq, ht⟩)
      · exact .inl h
      · exact .inr ⟨r, c, .inl hp, ht⟩
      · exact .inr ⟨r, c, .inr hq, key r c hq ▸ ht⟩
    · rintro (h | ⟨r, c, hp | hq, ht⟩)
      · exact .inl (.inl h)
      · exact .inl (.inr ⟨r, c, hp, ht⟩)
      · exact .inr ⟨r, c, hq, (key r c hq).trans ht⟩
  toggles := by
    rw [h'.toggles, h.toggles]
    constructor
    · rintro ((h | ⟨r, c, hp⟩) | ⟨r, c, hq⟩)
      · exact .inl h
      · exact .inr ⟨r, c, .inl hp⟩
      · exact .inr ⟨r, c, .inr hq⟩
    · rintro (h | ⟨r, c, hp | hq⟩)
      · exact .inl (.inl h)
      · exact .inl (.inr ⟨r, c, hp⟩)
      · exact .inr ⟨r, c, hq⟩

/-- One toggle inverts its own pixel. -/
theorem Drew.toggle (d : Drawing) {r c : Nat} (hr : r < 32) (hc : c < 64) :
    Drew (fun r' c' => r' = r ∧ c' = c) d (d.toggle r c) where
  inverted r' c' h := by
    obtain ⟨rfl, rfl⟩ := h
    simp [Drawing.toggle, Display.pixel_setPixel, hr, hc]
  kept r' c' h := by
    have : ¬(r' = r ∧ c' = c ∧ r < 32 ∧ c < 64) := fun ⟨h1, h2, _⟩ => h ⟨h1, h2⟩
    simp only [Drawing.toggle, Display.pixel_setPixel, if_neg this]
  collides := by
    rw [Drawing.toggle, Bool.or_eq_true]
    exact or_congr_right ⟨fun h => ⟨r, c, ⟨rfl, rfl⟩, h⟩, fun ⟨_, _, ⟨h1, h2⟩, h⟩ => h1 ▸ h2 ▸ h⟩
  toggles := ⟨fun _ => .inr ⟨r, c, rfl, rfl⟩, fun _ => rfl⟩

/-- The inner loop toggles the pixels of its row that its 1 bits reach inside the right edge. -/
theorem drawBits_drew {r : Nat} (hr : r < 32) (c : Nat) (bits : List Bool) (d : Drawing) :
    Drew (fun r' c' => r' = r ∧ c ≤ c' ∧ c' < 64 ∧ bits[c' - c]? = some true) d (drawBits r c bits d) := by
  induction bits generalizing c d with
  | nil => exact (Drew.refl d).congr fun r' c' => by simp
  | cons bit bits ih =>
    have shift : ∀ c', c + 1 ≤ c' → (bit :: bits)[c' - c]? = bits[c' - (c + 1)]? := fun c' h => by
      rw [show c' - c = c' - (c + 1) + 1 by omega, List.getElem?_cons_succ]
    rw [drawBits]
    cases bit with
    | false =>
      rw [if_pos rfl]
      refine (ih (c + 1) d).congr fun r' c' => and_congr_right fun _ => ?_
      by_cases h : c + 1 ≤ c'
      · rw [shift c' h]; simp [h, show c ≤ c' by omega]
      · simp only [h, false_and, false_iff]
        rintro ⟨h1, -, h3⟩
        rw [show c' - c = 0 by omega] at h3
        simp at h3
    | true =>
      rw [if_neg (by simp)]
      split
      · next hc =>
        exact (Drew.refl d).congr fun r' c' => by
          simp only [false_iff]; rintro ⟨-, h1, h2, -⟩; omega
      · next hc =>
        refine ((Drew.toggle d hr (by omega : c < 64)).trans (ih (c + 1) _) ?_).congr ?_
        · rintro r' c' ⟨-, rfl⟩ ⟨-, h, -⟩
          omega
        · intro r' c'
          by_cases h : c + 1 ≤ c'
          · rw [shift c' h]
            simp [h, show c ≤ c' by omega, show c' ≠ c by omega]
          · by_cases e : c' = c
            · subst e; simp [show c' < 64 by omega]
            · simp [h, e, show ¬c ≤ c' by omega]

/-- The outer loop toggles the pixels its sprite rows cover inside both edges. -/
theorem drawRows_drew (px r : Nat) (rows : List Byte) (d : Drawing) :
    Drew (fun r' c' => r ≤ r' ∧ r' < 32 ∧ px ≤ c' ∧ c' < 64 ∧
      ∃ b, rows[r' - r]? = some b ∧ (spriteBits b)[c' - px]? = some true) d (drawRows px r rows d) := by
  induction rows generalizing r d with
  | nil => exact (Drew.refl d).congr fun r' c' => by simp
  | cons b rows ih =>
    rw [drawRows]
    split
    · next h =>
      exact (Drew.refl d).congr fun r' c' => by
        simp only [false_iff]; rintro ⟨h1, h2, -⟩; omega
    · next h =>
      refine ((drawBits_drew (by omega : r < 32) px (spriteBits b) d).trans (ih (r + 1) _) ?_).congr ?_
      · rintro r' c' ⟨rfl, -⟩ ⟨h1, -⟩
        omega
      · intro r' c'
        by_cases h1 : r + 1 ≤ r'
        · rw [show r' - r = r' - (r + 1) + 1 by omega, List.getElem?_cons_succ]
          simp [h1, show r ≤ r' by omega, show r' ≠ r by omega]
        · by_cases e : r' = r
          · subst e; simp [show r' < 32 by omega]
          · simp [h1, e, show ¬r ≤ r' by omega]

end Sys2Proof.Machine
end

