-- ==== Sys2Proof/Laws/PerInstr.lean ====
section
/-! SUPPORT. Laws/PerInstr.lean: laws of every instruction as syntax, one lemma per constructor. -/

namespace Sys2Proof.Laws.EncodedRow

/-- The word of a well-formed instruction selects the instruction's own row, under every opcode map
(30_encoding.md R96). -/
def Statement (i : Instr) : Prop :=
  ∀ m strict, i.wf strict = true → selects (encode m i) (rowOf m strict i) = true

theorem exactRow {w : Word} : selects w (rowExact w) = true := by
  have h : w &&& 0xFFFF = w := BitVec.and_allOnes
  simp only [selects, rowExact, h, beq_self_eq_true]

theorem nnnRow {op : Nibble} {nnn : Imm12} : selects (formatNNN op nnn) (rowOp op) = true := by
  have hm : (0xF000 : Word) = formatNNN 0xF 0 := rfl
  have ho : op &&& 0xF = op := BitVec.and_allOnes
  have hn : nnn &&& 0 = 0 := BitVec.and_zero
  simp only [selects, rowOp, hm, formatNNN_and, ho, hn, beq_self_eq_true]

theorem xnnMasked {op x : Nibble} {nn m k : Byte} {r : Word × Word} (h : r = (formatXNN op 0 k, formatXNN 0xF 0 m))
    (hk : nn &&& m = k) : selects (formatXNN op x nn) r = true := by
  subst h
  have ho : op &&& 0xF = op := BitVec.and_allOnes
  have hx : x &&& 0 = 0 := BitVec.and_zero
  simp only [selects, formatXNN_and, ho, hx, hk, beq_self_eq_true]

theorem xynMasked {op x y n m k : Nibble} {r : Word × Word} (h : r = (formatXYN op 0 0 k, formatXYN 0xF 0 0 m))
    (hk : n &&& m = k) : selects (formatXYN op x y n) r = true := by
  subst h
  have ho : op &&& 0xF = op := BitVec.and_allOnes
  have hx : x &&& 0 = 0 := BitVec.and_zero
  have hy : y &&& 0 = 0 := BitVec.and_zero
  simp only [selects, formatXYN_and, ho, hx, hy, hk, beq_self_eq_true]

theorem xnnRow {op x : Nibble} {nn : Byte} : selects (formatXNN op x nn) (rowOp op) = true :=
  xnnMasked (m := 0) (by rw [rowOp, ← formatXNN_zero]; rfl) BitVec.and_zero

theorem nnRow {op x : Nibble} {nn : Byte} : selects (formatXNN op x nn) (rowNN op nn) = true :=
  xnnMasked (m := 0xFF) rfl BitVec.and_allOnes

theorem xynRow {op x y n : Nibble} : selects (formatXYN op x y n) (rowOp op) = true :=
  xynMasked (m := 0) (by rw [rowOp, ← formatXYN_zero]; rfl) BitVec.and_zero

theorem nRow {op x y n : Nibble} : selects (formatXYN op x y n) (rowN op n) = true :=
  xynMasked (m := 0xF) rfl BitVec.and_allOnes

/-- The register skips: the low nibble is masked out, or, under STRICT_LOW_NIBBLE, zero (R98). -/
theorem skipRow {op x y ign : Nibble} {strict : Bool} (h : ignOk strict ign = true) :
    selects (formatXYN op x y ign) (rowSkip strict op) = true := by
  cases strict with
  | false => exact xynMasked (m := 0) (k := 0) rfl BitVec.and_zero
  | true =>
    have : ign = 0 := by simpa [ignOk] using h
    subst this
    exact xynMasked (m := 0xF) (k := 0) rfl rfl

theorem cls : Statement .cls := fun _ _ _ => exactRow
theorem ret : Statement .ret := fun _ _ _ => exactRow
theorem jp (nnn : Imm12) : Statement (.jp nnn) := fun _ _ _ => nnnRow
theorem call (nnn : Imm12) : Statement (.call nnn) := fun _ _ _ => nnnRow
theorem seImm (x : Nibble) (nn : Byte) : Statement (.seImm x nn) := fun _ _ _ => xnnRow
theorem sneImm (x : Nibble) (nn : Byte) : Statement (.sneImm x nn) := fun _ _ _ => xnnRow
theorem seReg (x y ign : Nibble) : Statement (.seReg x y ign) := fun _ _ h => skipRow h
theorem ldImm (x : Nibble) (nn : Byte) : Statement (.ldImm x nn) := fun _ _ _ => xnnRow
theorem addImm (x : Nibble) (nn : Byte) : Statement (.addImm x nn) := fun _ _ _ => xnnRow
theorem ldReg (x y : Nibble) : Statement (.ldReg x y) := fun _ _ _ => nRow
theorem or (x y : Nibble) : Statement (.or x y) := fun _ _ _ => nRow
theorem and (x y : Nibble) : Statement (.and x y) := fun _ _ _ => nRow
theorem xor (x y : Nibble) : Statement (.xor x y) := fun _ _ _ => nRow
theorem addReg (x y : Nibble) : Statement (.addReg x y) := fun _ _ _ => nRow
theorem sub (x y : Nibble) : Statement (.sub x y) := fun _ _ _ => nRow
theorem shr (x ign : Nibble) : Statement (.shr x ign) := fun _ _ _ => nRow
theorem subn (x y : Nibble) : Statement (.subn x y) := fun _ _ _ => nRow
theorem shl (x ign : Nibble) : Statement (.shl x ign) := fun _ _ _ => nRow
theorem sneReg (x y ign : Nibble) : Statement (.sneReg x y ign) := fun _ _ h => skipRow h
theorem ldI (nnn : Imm12) : Statement (.ldI nnn) := fun _ _ _ => nnnRow
theorem jpV0 (nnn : Imm12) : Statement (.jpV0 nnn) := fun _ _ _ => nnnRow
theorem rnd (x : Nibble) (nn : Byte) : Statement (.rnd x nn) := fun _ _ _ => xnnRow
theorem drw (x y n : Nibble) : Statement (.drw x y n) := fun _ _ _ => xynRow
theorem skp (x : Nibble) : Statement (.skp x) := fun _ _ _ => nnRow
theorem sknp (x : Nibble) : Statement (.sknp x) := fun _ _ _ => nnRow
theorem ldVxDt (x : Nibble) : Statement (.ldVxDt x) := fun _ _ _ => nnRow
theorem ldVxK (x : Nibble) : Statement (.ldVxK x) := fun _ _ _ => nnRow
theorem ldDtVx (x : Nibble) : Statement (.ldDtVx x) := fun _ _ _ => nnRow
theorem ldStVx (x : Nibble) : Statement (.ldStVx x) := fun _ _ _ => nnRow
theorem addI (x : Nibble) : Statement (.addI x) := fun _ _ _ => nnRow
theorem ldF (x : Nibble) : Statement (.ldF x) := fun _ _ _ => nnRow
theorem ldB (x : Nibble) : Statement (.ldB x) := fun _ _ _ => nnRow
theorem storeRegs (x : Nibble) : Statement (.storeRegs x) := fun _ _ _ => nnRow
theorem loadRegs (x : Nibble) : Statement (.loadRegs x) := fun _ _ _ => nnRow

end Sys2Proof.Laws.EncodedRow
end

