-- ==== Sys2Proof/Tests/Slice0.lean ====
section
/-! SUPPORT. Tests/Slice0.lean: the model's own tests. Expected results are the spec's vectors
(spec/95_test_vectors.md; the vector's id is in the docstring) or words written out from 30_encoding.md; the
`witness_` theorems show that the hypotheses of the obligations can be met. -/

namespace Sys2Proof.Tests

open Sys2Proof Sys2Proof.Machine

/-! ### Helpers -/

/-- What `f` sees of a next state; none after a fault or a refusal. -/
def obs {α : Type} (f : State → α) : Host.Outcome State Fault Refusal → Option α
  | .next t => some (f t)
  | _ => none

/-- The refusal an outcome is, if it is one. -/
def refusalOf : Host.Outcome State Fault Refusal → Option Refusal
  | .refused r => some r
  | _ => none

/-- The reset state with some registers and `I` set. -/
def start (regs : List (Nibble × Byte)) (i : Word := 0) : State :=
  (regs.foldl (fun s r => s.setReg r.1 r.2) State.reset).setI i

/-- `s` with bytes laid from address `a` on. -/
def withBytes (s : State) (a : Nat) : List Byte → State
  | [] => s
  | b :: bs => withBytes (s.setByte a b) (a + 1) bs

/-- One step of the word `w` placed at `a`, with nothing scheduled. -/
def run1 (s : State) (a w : Word) : Host.Outcome State Fault Refusal :=
  step ({ s with pc := a }.withFetchWord 16 w.toNat)

/-- One scheduled step of the word `w` placed at `a`. -/
def run1With (p : StepInputs) (s : State) (a w : Word) : Host.Outcome State Fault Refusal :=
  step { { s with pc := a }.withFetchWord 16 w.toNat with pending := [.step p] }

/-- `s` with STRICT_LOW_NIBBLE on. -/
def strictly (s : State) : State := { s with cfg := { s.cfg with strictLowNibble := true } }

/-- Decoding under the default OPCODE_MAP. -/
def dec (strict : Bool) (w : Word) : Decoded := decode defaultOpcodeMap strict w

/-- Another OPCODE_MAP the model accepts: JP and CALL change places, RET is 00EF. -/
def otherMap : OpcodeMap := { defaultOpcodeMap with ret := 0x00EF, jp := 0x2, call := 0x1 }

/-- The reset state of a machine with that map. -/
def otherStart : State := { State.reset with cfg := { defaultConfig with opcodeMap := otherMap } }

/-! ### WellFormed smoke test (30_encoding.md R98) -/

theorem test_wf_refuses_nonzero_nibble_of_5xy :
    (Instr.seReg 1 2 1).wf true = false ∧ (Instr.seReg 1 2 1).wf false = true ∧ (Instr.seReg 1 2 0).wf true = true := by
  decide

theorem test_wf_refuses_nonzero_nibble_of_9xy :
    (Instr.sneReg 1 2 5).wf true = false ∧ (Instr.sneReg 1 2 5).wf false = true ∧ (Instr.sneReg 1 2 0).wf true = true := by
  decide

/-! ### Decoding: one word per constructor, bit by bit from the layouts of 30_encoding.md R92 and the map of R96 -/

theorem test_decode_control :
    dec false 0b0000_000011100000#16 = .instr .cls ∧
    dec false 0b0000_000011101110#16 = .instr .ret ∧
    dec false 0b0001_101010111100#16 = .instr (.jp 0xABC) ∧
    dec false 0b0010_111111111111#16 = .instr (.call 0xFFF) ∧
    dec false 0b0011_1010_11111111#16 = .instr (.seImm 0xA 0xFF) ∧
    dec false 0b0100_0010_00010000#16 = .instr (.sneImm 2 0x10) ∧
    dec false 0b0101_0001_0010_0000#16 = .instr (.seReg 1 2 0) ∧
    dec false 0b1001_0001_0010_0101#16 = .instr (.sneReg 1 2 5) ∧
    dec false 0b1011_001100000000#16 = .instr (.jpV0 0x300) := by decide

theorem test_decode_immediate :
    dec false 0b0110_1010_00000101#16 = .instr (.ldImm 0xA 5) ∧
    dec false 0b0111_1111_00000001#16 = .instr (.addImm 0xF 1) ∧
    dec false 0b1100_0001_00001111#16 = .instr (.rnd 1 0x0F) := by decide

theorem test_decode_alu :
    dec false 0b1000_0001_0010_0000#16 = .instr (.ldReg 1 2) ∧
    dec false 0b1000_0001_0010_0001#16 = .instr (.or 1 2) ∧
    dec false 0b1000_0001_0010_0010#16 = .instr (.and 1 2) ∧
    dec false 0b1000_0001_0010_0011#16 = .instr (.xor 1 2) ∧
    dec false 0b1000_0001_0010_0100#16 = .instr (.addReg 1 2) ∧
    dec false 0b1000_0001_0010_0101#16 = .instr (.sub 1 2) ∧
    dec false 0b1000_0001_0010_0110#16 = .instr (.shr 1 2) ∧
    dec false 0b1000_0001_0010_0111#16 = .instr (.subn 1 2) ∧
    dec false 0b1000_0001_0010_1110#16 = .instr (.shl 1 2) := by decide

theorem test_decode_index_and_display :
    dec false 0b1010_001011110000#16 = .instr (.ldI 0x2F0) ∧
    dec false 0b1101_0001_0010_1010#16 = .instr (.drw 1 2 0xA) ∧
    dec false 0b1111_0011_00011110#16 = .instr (.addI 3) ∧
    dec false 0b1111_0011_00101001#16 = .instr (.ldF 3) ∧
    dec false 0b1111_0011_00110011#16 = .instr (.ldB 3) ∧
    dec false 0b1111_0011_01010101#16 = .instr (.storeRegs 3) ∧
    dec false 0b1111_0011_01100101#16 = .instr (.loadRegs 3) := by decide

theorem test_decode_input_and_timers :
    dec false 0b1110_0001_10011110#16 = .instr (.skp 1) ∧
    dec false 0b1110_0001_10100001#16 = .instr (.sknp 1) ∧
    dec false 0b1111_0001_00000111#16 = .instr (.ldVxDt 1) ∧
    dec false 0b1111_0001_00001010#16 = .instr (.ldVxK 1) ∧
    dec false 0b1111_0001_00010101#16 = .instr (.ldDtVx 1) ∧
    dec false 0b1111_0001_00011000#16 = .instr (.ldStVx 1) := by decide

/-- Part 3: illegal words of R99 (a) to (d). -/
theorem test_decode_illegal :
    dec false 0x0000 = .invalidOpcode ∧ dec false 0x00E1 = .invalidOpcode ∧ dec false 0x01E0 = .invalidOpcode ∧
    dec false 0x8128 = .invalidOpcode ∧ dec false 0x812D = .invalidOpcode ∧ dec false 0x812F = .invalidOpcode ∧
    dec false 0xE100 = .invalidOpcode ∧ dec false 0xE19F = .invalidOpcode ∧ dec false 0xE1A0 = .invalidOpcode ∧
    dec false 0xF101 = .invalidOpcode ∧ dec false 0xF130 = .invalidOpcode ∧ dec false 0xFFFF = .invalidOpcode := by decide

/-- Part 3: 5121 and 9125 are illegal under STRICT_LOW_NIBBLE only (R98). -/
theorem test_decode_strict :
    dec false 0x5121 = .instr (.seReg 1 2 1) ∧ dec true 0x5121 = .invalidOpcode ∧
    dec true 0x9125 = .invalidOpcode ∧ dec true 0x8126 = .instr (.shr 1 2) := by decide

/-- R103: the number given to the host's decoder is the first word. -/
theorem test_decodeTableWord :
    decodeTableWord 16 0x6A05 = some (.ldImm 0xA 5) ∧ decodeTableWord 16 0x8128 = none := by decide

/-- R97: the numbers of OPCODE_MAP decide what a word is, in the decoder, the step, the encoder and the record. -/
theorem test_other_opcode_map :
    decode otherMap false 0x1ABC = .instr (.call 0xABC) ∧ decode otherMap false 0x00EE = .invalidOpcode ∧
    encode otherMap (.jp 0xABC) = 0x2ABC ∧
    obs (fun t => (t.pc, t.sp)) (run1 otherStart 0x200 0x1ABC) = some (0xABC, 1) ∧
    obs State.fault (run1 otherStart 0x200 0x00EF) = some (some ⟨.stackUnderflow, 0x200, some 0x00EF⟩) := by decide

/-- R95, R97: a map that uses a number twice, that moves a pinned number, or that puts RET elsewhere is not accepted. -/
theorem test_valid_opcode_map :
    validOpcodeMap otherMap = true ∧ validOpcodeMap { defaultOpcodeMap with jp := 0x2 } = false ∧
    validOpcodeMap { defaultOpcodeMap with ldImm := 0x7, addImm := 0x6 } = false ∧
    validOpcodeMap { defaultOpcodeMap with ret := 0x10EE } = false ∧
    validOpcodeMap { defaultOpcodeMap with shl := 0x6 } = false := by decide

/-! ### Control flow (vectors C) -/

/-- C1, C2. -/
theorem test_jp :
    obs State.pc (run1 State.reset 0x200 0x1ABC) = some 0x0ABC ∧
    obs (fun t => (t.pc, t.halted)) (run1 State.reset 0x200 0x1FFF) = some (0x0FFF, false) := by decide

/-- C4. -/
theorem test_call : obs (fun t => (t.frame 0, t.sp, t.pc)) (run1 State.reset 0x204 0x2208) = some (some 0x206, 1, 0x208) := by
  decide

/-- C6. -/
theorem test_call_overflow :
    obs (fun t => (t.fault, t.sp, t.halted)) (run1 { State.reset with stack := List.replicate 16 0x202 } 0x250 0x2300) =
      some (some ⟨.stackOverflow, 0x250, some 0x2300⟩, 16, true) := by decide

/-- C5. -/
theorem test_ret : obs (fun t => (t.sp, t.pc)) (run1 { State.reset with stack := [0x206] } 0x20C 0x00EE) = some (0, 0x206) := by
  decide

/-- C7. -/
theorem test_ret_underflow :
    obs (fun t => (t.fault, t.sp)) (run1 State.reset 0x200 0x00EE) = some (some ⟨.stackUnderflow, 0x200, some 0x00EE⟩, 0) := by
  decide

/-- C8, C9, C10. -/
theorem test_seImm :
    obs State.pc (run1 State.reset 0x208 0x3100) = some 0x20C ∧
    obs State.pc (run1 (start [(1, 4)]) 0x208 0x3100) = some 0x20A ∧
    obs State.pc (run1 (start [(15, 1)]) 0x200 0x3F01) = some 0x204 := by decide

/-- C11, C12. -/
theorem test_sneImm :
    obs State.pc (run1 (start [(2, 0x10)]) 0x300 0x4210) = some 0x302 ∧
    obs State.pc (run1 (start [(2, 0x10)]) 0x300 0x4211) = some 0x304 := by decide

/-- C13, C14, C15. -/
theorem test_seReg :
    obs State.pc (run1 (start [(3, 7), (4, 7)]) 0x200 0x5340) = some 0x204 ∧
    obs State.pc (run1 (start [(3, 7), (4, 8)]) 0x200 0x5340) = some 0x202 ∧
    obs State.pc (run1 (start [(3, 7), (4, 7)]) 0x200 0x5341) = some 0x204 := by decide

/-- C17, C18. -/
theorem test_sneReg :
    obs State.pc (run1 (start [(3, 7), (4, 8)]) 0x200 0x9340) = some 0x204 ∧
    obs State.pc (run1 (start [(3, 9)]) 0x200 0x9330) = some 0x202 := by decide

/-- C15, C19 with STRICT_LOW_NIBBLE. -/
theorem test_strict_low_nibble :
    obs State.fault (run1 (strictly State.reset) 0x200 0x5341) = some (some ⟨.invalidOpcode, 0x200, some 0x5341⟩) ∧
    obs State.fault (run1 (strictly State.reset) 0x200 0x934F) = some (some ⟨.invalidOpcode, 0x200, some 0x934F⟩) := by decide

/-- C21, C22. -/
theorem test_jpV0 :
    obs State.pc (run1 (start [(0, 0xFF)]) 0x200 0xBFFF) = some 0x10FE ∧
    obs State.pc (run1 (start [(0, 2), (3, 0x40)]) 0x200 0xB300) = some 0x302 := by decide

/-- C3, C24: an odd address is fetched; a skip at the end of memory leaves `pc` above it. -/
theorem test_fetch_odd_and_last :
    obs (fun t => (t.reg 10, t.pc)) (run1 State.reset 0x203 0x6A05) = some (5, 0x205) ∧
    obs (fun t => (t.pc, t.halted)) (run1 State.reset 0xFFE 0x3000) = some (0x1002, false) := by decide

/-- C25, X5. -/
theorem test_fetch_above_memory :
    obs State.fault (step { State.reset with pc := 0xFFF }) = some (some ⟨.memoryFault, 0xFFF, none⟩) ∧
    obs State.fault (step { State.reset with pc := 0x1000 }) = some (some ⟨.memoryFault, 0x1000, none⟩) := by decide

/-! ### Immediate, ALU, random (vectors S, A) -/

/-- S8, A1. -/
theorem test_ldImm :
    obs (fun t => (t.reg 10, t.pc)) (run1 State.reset 0x200 0x6A05) = some (5, 0x202) ∧
    obs (·.reg 15) (run1 State.reset 0x200 0x6FFF) = some 0xFF := by decide

/-- A2, A3. -/
theorem test_addImm :
    obs (fun t => (t.reg 1, t.reg 15)) (run1 (start [(1, 0xFF)]) 0x200 0x7102) = some (1, 0) ∧
    obs (·.reg 15) (run1 (start [(15, 0xFF)]) 0x200 0x7F01) = some 0 := by decide

/-- A5. -/
theorem test_ldReg :
    obs (fun t => (t.reg 1, t.reg 15)) (run1 (start [(2, 0x5A), (15, 1)]) 0x200 0x8120) = some (0x5A, 1) := by decide

/-- A6. -/
theorem test_or :
    obs (fun t => (t.reg 1, t.reg 15)) (run1 (start [(1, 0xF0), (2, 0x0F), (15, 1)]) 0x200 0x8121) = some (0xFF, 1) := by
  decide

/-- A7. -/
theorem test_and :
    obs (fun t => (t.reg 1, t.reg 15)) (run1 (start [(1, 0xF3), (2, 0x3F), (15, 1)]) 0x200 0x8122) = some (0x33, 1) := by
  decide

/-- A8, A9. -/
theorem test_xor :
    obs (fun t => (t.reg 1, t.reg 15)) (run1 (start [(1, 0xFF), (2, 0x0F), (15, 1)]) 0x200 0x8123) = some (0xF0, 1) ∧
    obs (·.reg 1) (run1 (start [(1, 0x6C)]) 0x200 0x8113) = some 0 := by decide

/-- S1, A10. -/
theorem test_addReg :
    obs (fun t => (t.reg 0, t.reg 15)) (run1 (start [(0, 0xFF), (1, 1)]) 0x200 0x8014) = some (0, 1) ∧
    obs (fun t => (t.reg 0, t.reg 15)) (run1 (start [(0, 0x10), (1, 0x20), (15, 1)]) 0x200 0x8014) = some (0x30, 0) := by
  decide

/-- A12, A13, A14: VF as destination and as operand. -/
theorem test_addReg_flag_last :
    obs (·.reg 15) (run1 (start [(15, 0xFF), (1, 1)]) 0x200 0x8F14) = some 1 ∧
    obs (·.reg 15) (run1 (start [(15, 2), (1, 3)]) 0x200 0x8F14) = some 0 ∧
    obs (fun t => (t.reg 0, t.reg 15)) (run1 (start [(0, 0xFF), (15, 1)]) 0x200 0x80F4) = some (0, 1) := by decide

/-- S2, A16, A17. -/
theorem test_sub :
    obs (fun t => (t.reg 0, t.reg 15)) (run1 (start [(0, 1), (1, 2)]) 0x200 0x8015) = some (0xFF, 0) ∧
    obs (fun t => (t.reg 0, t.reg 15)) (run1 (start [(0, 5), (1, 5)]) 0x200 0x8015) = some (0, 1) ∧
    obs (fun t => (t.reg 0, t.reg 15)) (run1 (start [(0, 5), (1, 3)]) 0x200 0x8015) = some (2, 1) := by decide

/-- A19, A20. -/
theorem test_sub_flag_last :
    obs (·.reg 15) (run1 (start [(15, 5), (1, 3)]) 0x200 0x8F15) = some 1 ∧
    obs (·.reg 15) (run1 (start [(15, 3), (1, 5)]) 0x200 0x8F15) = some 0 := by decide

/-- A21, A22, A23. -/
theorem test_subn :
    obs (fun t => (t.reg 1, t.reg 15)) (run1 (start [(1, 3), (2, 0x0A)]) 0x200 0x8127) = some (7, 1) ∧
    obs (fun t => (t.reg 1, t.reg 15)) (run1 (start [(1, 0x0A), (2, 3)]) 0x200 0x8127) = some (0xF9, 0) ∧
    obs (fun t => (t.reg 1, t.reg 15)) (run1 (start [(1, 0x44), (2, 0x44)]) 0x200 0x8127) = some (0, 1) := by decide

/-- A26, A27. -/
theorem test_shr :
    obs (fun t => (t.reg 1, t.reg 2, t.reg 15)) (run1 (start [(1, 5), (2, 0xF0)]) 0x200 0x8126) = some (2, 0xF0, 1) ∧
    obs (fun t => (t.reg 1, t.reg 15)) (run1 (start [(1, 0xFF)]) 0x200 0x8106) = some (0x7F, 1) := by decide

/-- A28, A29. -/
theorem test_shr_flag_last :
    obs (·.reg 15) (run1 (start [(15, 3)]) 0x200 0x8F06) = some 1 ∧
    obs (·.reg 15) (run1 (start [(15, 2)]) 0x200 0x8F06) = some 0 := by decide

/-- A31, A32. -/
theorem test_shl :
    obs (fun t => (t.reg 1, t.reg 15)) (run1 (start [(1, 0x40), (15, 1)]) 0x200 0x810E) = some (0x80, 0) ∧
    obs (fun t => (t.reg 1, t.reg 15)) (run1 (start [(1, 0x80)]) 0x200 0x81AE) = some (0, 1) := by decide

/-- A33, A34. -/
theorem test_shl_flag_last :
    obs (·.reg 15) (run1 (start [(15, 0x80)]) 0x200 0x8F0E) = some 1 ∧
    obs (·.reg 15) (run1 (start [(15, 1)]) 0x200 0x8F0E) = some 0 := by decide

/-- A35, A37 (at `r = 0xA7`). -/
theorem test_rnd :
    obs (·.reg 1) (run1With ⟨0xA7, 0, none⟩ State.reset 0x200 0xC10F) = some 0x07 ∧
    obs (·.reg 1) (run1With ⟨0xA7, 0, none⟩ State.reset 0x200 0xC1FF) = some 0xA7 := by decide

/-- A38, X1, X3, X4. -/
theorem test_illegal_word :
    obs State.fault (run1 State.reset 0x200 0x8128) = some (some ⟨.invalidOpcode, 0x200, some 0x8128⟩) ∧
    obs State.fault (step State.reset) = some (some ⟨.invalidOpcode, 0x200, some 0x0000⟩) ∧
    obs State.fault (run1 State.reset 0x200 0xE19F) = some (some ⟨.invalidOpcode, 0x200, some 0xE19F⟩) ∧
    obs State.fault (run1 State.reset 0x200 0xF1FF) = some (some ⟨.invalidOpcode, 0x200, some 0xF1FF⟩) := by decide

/-! ### Index and memory (vectors M, B) -/

/-- S7, M1. -/
theorem test_ldI :
    obs State.I (run1 State.reset 0x200 0xA2F0) = some 0x2F0 ∧
    obs (fun t => (t.I, t.halted)) (run1 State.reset 0x200 0xAFFF) = some (0xFFF, false) := by decide

/-- M2, M3. -/
theorem test_addI :
    obs (fun t => (t.I, t.reg 15)) (run1 (start [(1, 0x20)] 0xFF0) 0x200 0xF11E) = some (0x010, 1) ∧
    obs (fun t => (t.I, t.reg 15)) (run1 (start [(1, 0x20), (15, 7)] 0x300) 0x200 0xF11E) = some (0x320, 7) := by decide

/-- M5, M6. -/
theorem test_addI_boundary :
    obs (fun t => (t.I, t.reg 15)) (run1 (start [(1, 0xFF)] 0xF00) 0x200 0xF11E) = some (0xFFF, 0) ∧
    obs (fun t => (t.I, t.reg 15)) (run1 (start [(15, 1)] 0xFFF) 0x200 0xFF1E) = some (0, 1) := by decide

/-- M7, M8, and M7 with FONT_STRIDE = 5. -/
theorem test_ldF :
    obs State.I (run1 (start [(2, 0x0A)]) 0x200 0xF229) = some 0x5A ∧
    obs State.I (run1 (start [(2, 0x1A)]) 0x200 0xF229) = some 0x5A ∧
    obs State.I (run1 { start [(2, 0x0A)] with cfg := { defaultConfig with fontStride := 5 } } 0x200 0xF229) = some 0x82 := by
  decide

/-- S10, B5. -/
theorem test_ldB :
    obs (fun t => (t.byteAt 0x300, t.byteAt 0x301, t.byteAt 0x302)) (run1 (start [(0, 0xEA)] 0x300) 0x200 0xF033) =
      some (2, 3, 4) ∧
    obs (fun t => (t.byteAt 0xFFD, t.byteAt 0xFFE, t.byteAt 0xFFF, t.halted)) (run1 (start [(0, 0x7B)] 0xFFD) 0x200 0xF033) =
      some (1, 2, 3, false) := by decide

/-- B6. -/
theorem test_ldB_fault :
    obs (fun t => (t.fault, t.byteAt 0xFFE, t.byteAt 0xFFF)) (run1 (start [(0, 0x7B)] 0xFFE) 0x200 0xF033) =
      some (some ⟨.memoryFault, 0x200, some 0xF033⟩, 0, 0) := by decide

/-- Sixteen registers `V[i] = 0xA0 + i` (vectors M10, M11). -/
def sixteen (i : Word) : State :=
  { State.reset with V := Vector.ofFn fun k : Fin 16 => BitVec.ofNat 8 (0xA0 + k.val), I := i }

/-- M9, M10. -/
theorem test_storeRegs :
    obs (fun t => (t.byteAt 0x300, t.byteAt 0x301, t.I))
      (run1 (withBytes (start [(0, 0x11), (1, 0x22)] 0x300) 0x301 [0x77]) 0x200 0xF055) = some (0x11, 0x77, 0x300) ∧
    obs (fun t => (t.byteAt 0x300, t.byteAt 0x308, t.byteAt 0x30F, t.byteAt 0x310, t.I)) (run1 (sixteen 0x300) 0x200 0xFF55) =
      some (0xA0, 0xA8, 0xAF, 0, 0x300) := by decide

/-- M11. -/
theorem test_storeRegs_partial :
    obs (fun t => (t.fault, t.byteAt 0xFF8, t.byteAt 0xFFF)) (run1 (sixteen 0xFF8) 0x200 0xFF55) =
      some (some ⟨.memoryFault, 0x200, some 0xFF55⟩, 0xA0, 0xA7) := by decide

/-- M12, M15. -/
theorem test_loadRegs :
    obs (fun t => (t.reg 0, t.reg 1, t.I)) (run1 (withBytes (start [(1, 0x55)] 0x300) 0x300 [2, 3]) 0x200 0xF065) =
      some (2, 0x55, 0x300) ∧
    obs (fun t => (t.reg 0, t.halted)) (run1 (withBytes (start [] 0xFFF) 0xFFF [0x42]) 0x200 0xF065) = some (0x42, false) := by
  decide

/-- M14. -/
theorem test_loadRegs_partial :
    obs (fun t => (t.fault, t.reg 0, t.reg 1, t.reg 2))
      (run1 (withBytes (start [(2, 0x99)] 0xFFE) 0xFFE [0x12, 0x34]) 0x200 0xF265) =
      some (some ⟨.memoryFault, 0x200, some 0xF265⟩, 0x12, 0x34, 0x99) := by decide

/-! ### Display (vectors D) -/

/-- D1. -/
theorem test_cls :
    obs (fun t => (t.display, t.changed, t.reg 15))
      (run1 { start [(15, 1)] with display := Display.blank.setPixel 5 5 true } 0x200 0x00E0) =
      some (Display.blank, true, 1) := by decide

/-- D3 and S5: the right edge clips. -/
theorem test_drw_clips :
    obs (fun t => (t.display.pixel 0 59, t.display.pixel 0 60, t.display.pixel 0 63, t.display.pixel 0 0, t.reg 15, t.changed))
      (run1 (withBytes (start [(0, 60)] 0x20C) 0x20C [0xFF]) 0x200 0xD011) = some (false, true, true, false, 0, true) := by
  decide

/-- D5, D6: the start wraps, the bottom edge clips. -/
theorem test_drw_wraps_start_clips_bottom :
    obs (fun t => (t.display.pixel 1 4, t.reg 15))
      (run1 (withBytes (start [(0, 0x44), (1, 0x21)] 0x300) 0x300 [0x80]) 0x200 0xD011) = some (true, 0) ∧
    obs (fun t => (t.display.pixel 31 0, t.display.pixel 0 0))
      (run1 (withBytes (start [(1, 31)] 0x300) 0x300 [0x80, 0x80]) 0x200 0xD012) = some (true, false) := by decide

/-- D7, D12: a collision; the old VF as the column. -/
theorem test_drw_collision :
    obs (fun t => (t.display.pixel 0 0, t.display.pixel 0 1, t.reg 15))
      (run1 (withBytes { start [] 0x300 with display := Display.blank.setPixel 0 0 true } 0x300 [0xC0]) 0x200 0xD011) =
      some (false, true, 1) ∧
    obs (fun t => (t.display.pixel 0 3, t.reg 15)) (run1 (withBytes (start [(15, 3)] 0x300) 0x300 [0x80]) 0x200 0xDF11) =
      some (true, 0) := by decide

/-- D8, D14: nothing toggled leaves `changed`. -/
theorem test_drw_nothing_toggled :
    obs (fun t => (t.reg 15, t.changed, t.halted)) (run1 (start [(15, 1)] 0xFFF) 0x200 0xD010) = some (0, false, false) ∧
    obs (fun t => (t.display, t.changed)) (run1 (withBytes (start [(0, 60)] 0x300) 0x300 [0x0F]) 0x200 0xD011) =
      some (Display.blank, false) := by decide

/-- D9, D11: the whole range is checked first. -/
theorem test_drw_fault :
    obs (fun t => (t.fault, t.reg 15)) (run1 (start [(15, 1)] 0xFFF) 0x200 0xD012) =
      some (some ⟨.memoryFault, 0x200, some 0xD012⟩, 1) ∧
    obs State.fault (run1 (start [(1, 31)] 0xFFE) 0x200 0xD013) = some (some ⟨.memoryFault, 0x200, some 0xD013⟩) := by decide

/-! ### Input and timers (vectors K, T) -/

/-- K1, K2, K3. -/
theorem test_skp :
    obs State.pc (run1With ⟨0, 0x20, none⟩ (start [(1, 5)]) 0x200 0xE19E) = some 0x204 ∧
    obs State.pc (run1With ⟨0, 0, none⟩ (start [(1, 5)]) 0x200 0xE19E) = some 0x202 ∧
    obs State.pc (run1With ⟨0, 0x20, none⟩ (start [(1, 0x15)]) 0x200 0xE19E) = some 0x204 := by decide

/-- K4, K5, K9. -/
theorem test_sknp :
    obs State.pc (run1With ⟨0, 0, none⟩ (start [(1, 5)]) 0x200 0xE1A1) = some 0x204 ∧
    obs State.pc (run1With ⟨0, 0x20, none⟩ (start [(1, 5)]) 0x200 0xE1A1) = some 0x202 ∧
    obs State.pc (run1With ⟨0, 4, some 2⟩ (start [(1, 2)]) 0x200 0xE1A1) = some 0x202 := by decide

/-- K6, K7. -/
theorem test_ldVxK :
    obs (fun t => (t.pc, t.reg 3)) (run1With ⟨0, 8, none⟩ (start [(3, 9)]) 0x210 0xF30A) = some (0x210, 9) ∧
    obs (fun t => (t.pc, t.reg 3)) (run1With ⟨0, 0x800, some 0xB⟩ State.reset 0x210 0xF30A) = some (0x212, 0xB) := by decide

/-- T1. -/
theorem test_ldVxDt : obs (·.reg 4) (run1 { State.reset with DT := 0x2A } 0x200 0xF407) = some 0x2A := by decide

/-- T2. -/
theorem test_ldDtVx : obs (fun t => (t.DT, t.ST)) (run1 (start [(4, 0x3C)]) 0x200 0xF415) = some (0x3C, 0) := by decide

/-- T3. -/
theorem test_ldStVx : obs (fun t => (t.ST, t.DT)) (run1 (start [(4, 5)]) 0x200 0xF418) = some (5, 0) := by decide

/-! ### Events and reset (vectors D16, T4, T5, X) -/

/-- T4, T5. -/
theorem test_tick :
    obs (fun t => (t.DT, t.ST)) (applyEvent .tick { State.reset with DT := 2, ST := 1 }) = some (1, 0) ∧
    obs (fun t => (t.DT, t.ST)) (applyEvent .tick State.reset) = some (0, 0) := by decide

/-- D16. -/
theorem test_displayConsumed : obs State.changed (applyEvent .displayConsumed { State.reset with changed := true }) = some false := by
  decide

/-- A halted state with its record (vector X6). -/
def halted : State := { State.reset with halted := true, fault := some ⟨.invalidOpcode, 0x200, some 0⟩ }

/-- X6, and the refusals of U14. -/
theorem test_halted :
    obs id (applyEvent (.step ⟨1, 2, none⟩) halted) = some halted ∧
    refusalOf (applyEvent .tick halted) = some .tickWhileHalted ∧
    refusalOf (applyEvent .displayConsumed halted) = some .displayConsumedWhileHalted := by decide

/-- X7. -/
theorem test_reset_event :
    obs (fun t => (t.byteAt 0x200, t.byteAt 0x201, t.byteAt 0x202, t.byteAt 0, t.halted)) (applyEvent (.reset [0x60, 0xFF]) halted) =
      some (0x60, 0xFF, 0, 0, false) ∧
    obs (fun t => (t.byteAt 80, t.byteAt 159, t.byteAt 160, t.pc)) (applyEvent (.reset [0x60, 0xFF]) halted) =
      some (0xF0, 0x80, 0, 0x200) := by decide

/-- U6: a font that does not lie below the program region is refused. -/
theorem test_reset_refuses_font_offset :
    refusalOf (applyEvent (.reset []) { State.reset with cfg := { defaultConfig with fontOffset := 433 } }) = some .unsupportedConfig := by
  decide

/-- R62: with FETCH_BIG_ENDIAN off the byte at `pc` is the low half. -/
theorem test_fetch_byte_order :
    (withBytes State.reset 0x200 [0x6A, 0x05]).fetch = some 0x6A05 ∧
    (withBytes { State.reset with cfg := { defaultConfig with fetchBigEndian := false } } 0x200 [0x05, 0x6A]).fetch =
      some 0x6A05 := by decide

/-! ### Witnesses: the hypotheses of each obligation met together, every clause at a boundary value -/

theorem reset_inv : State.reset.Inv where
  cfgValid := by decide
  memWf := by decide
  indexRange := by decide
  stackBound := by decide
  haltRecord := rfl

theorem witness_ResetEventBuildsTheState :
    (List.replicate 3585 (0 : Byte)).length > 3584 ∧ (List.replicate 3584 (0 : Byte)).length ≤ 3584 ∧
    validConfig halted.cfg = true := by
  simp only [List.length_replicate]; decide

/-- An unscheduled step that runs an instruction, one that faults, and a scheduled `Reset` out of the halted state. -/
theorem witness_EveryStepKeepsTheInvariants :
    (∃ s t : State, s.Inv ∧ step s = .next t) ∧
    (∃ t, step State.reset = .next t ∧ t.halted = true) ∧
    ∃ s t : State, s.Inv ∧ s.halted = true ∧ step s = .next t :=
  ⟨⟨{ State.reset with mem := [(0x200, 0x6A), (0x201, 5)] }, _, ⟨rfl, by decide, by decide, by decide, rfl⟩, rfl⟩,
    ⟨_, rfl, rfl⟩,
    { halted with pending := [.reset [0x60, 0xFF]] }, _, ⟨rfl, by decide, by decide, by decide, rfl⟩, rfl, rfl⟩

theorem witness_DecodingAnEncodedInstructionGivesItBack :
    validOpcodeMap defaultOpcodeMap = true ∧ validOpcodeMap otherMap = true ∧
    (Instr.seReg 1 2 0).wf true = true ∧ (Instr.seReg 1 2 15).wf false = true ∧ (Instr.shl 1 15).wf true = true := by decide

theorem witness_EncodingADecodedWordGivesItBack :
    dec true 0x5120 = .instr (.seReg 1 2 0) ∧ dec false 0x512F = .instr (.seReg 1 2 15) ∧
    decode otherMap false 0x00EF = .instr .ret := by decide

theorem witness_DecoderFollowsTheOpcodeMap :
    validOpcodeMap otherMap = true ∧ decode otherMap false 0x00E0 = .instr .cls ∧
    (opcodeRows otherMap false).any (selects 0xD12A) = true ∧
    (opcodeRows otherMap true).all (fun row => !selects 0x5121 row) = true := by decide

theorem witness_AStepExecutesTheDecodedInstruction :
    let s : State := { State.reset with pc := 0xFFE, mem := [(0xFFE, 0x30)], pending := [.step ⟨7, 0, none⟩] }
    s.halted = false ∧ s.pc.toNat = 4094 ∧
    decode s.cfg.opcodeMap s.cfg.strictLowNibble (wordOfBytes s.cfg.fetchBigEndian (s.byteAt 4094) (s.byteAt 4095)) = .instr (.seImm 0 0) ∧
    s.pending = .step ⟨7, 0, none⟩ :: [] ∧ ({ s with pending := [] } : State).pending = [] := by decide

theorem witness_FetchReadsThePairOrFaults :
    (0xFFE : Word).toNat ≤ 4094 ∧ 4094 < (0xFFF : Word).toNat ∧ defaultConfig.fetchBigEndian = true ∧
    ({ defaultConfig with fetchBigEndian := false } : Config).fetchBigEndian = false ∧ State.reset.halted = false := by decide

theorem witness_AnIllegalWordHalts :
    State.reset.halted = false ∧ State.reset.fetch = some 0x0000 ∧
    decode State.reset.cfg.opcodeMap State.reset.cfg.strictLowNibble 0x0000 = .invalidOpcode := by decide

/-- A fetch that fails, an illegal word and a fault inside an instruction. -/
theorem witness_TheRecordNamesTheFetchedWord :
    State.reset.halted = false ∧ State.reset.fault = none ∧
    obs State.halted (applyEvent (.step ⟨0, 0, none⟩) { State.reset with pc := 0xFFF }) = some true ∧
    obs State.halted (applyEvent (.step ⟨0, 0, none⟩) State.reset) = some true ∧
    obs State.halted (applyEvent (.step ⟨0, 0, none⟩) (withBytes State.reset 0x200 [0x00, 0xEE])) = some true := by decide

theorem witness_AHaltedEngineDoesNothing : halted.halted = true ∧ halted.pending = [] := by decide

theorem witness_OnlyResetLeavesTheHaltedState :
    (∃ s t : State, s.halted = true ∧ s.pending = [.reset []] ∧ step s = .next t) ∧
    ∃ s t : State, s.halted = true ∧ s.pending = [.step ⟨0, 0, none⟩] ∧ step s = .next t :=
  ⟨⟨{ halted with pending := [.reset []] }, _, rfl, rfl, rfl⟩, { halted with pending := [.step ⟨0, 0, none⟩] }, _, rfl, rfl, rfl⟩

/-- TickCountsTheTimersDown, DisplayConsumedClearsChanged, ManyTicksStopAtZero. -/
theorem witness_ManyTicksStopAtZero :
    let s : State := { State.reset with DT := 1, pending := [.tick, .tick, .displayConsumed] }
    s.halted = false ∧ s.pending = List.replicate 2 .tick ++ [.displayConsumed] := by decide

theorem witness_APlacedWordRunsNext :
    let s : State := { halted with pc := 0xFFF }
    Memory.wf (background s.cfg) s.mem ∧ decode s.cfg.opcodeMap s.cfg.strictLowNibble 0x6A05 = .instr (.ldImm 0xA 5) := by decide

theorem witness_RetPopsOrUnderflows :
    ({ State.reset with stack := [0x206, 0x300] } : State).stack = 0x206 :: [0x300] ∧ State.reset.sp = 0 := by decide

theorem witness_CallPushesOrOverflows :
    ({ State.reset with stack := List.replicate 15 0x202 } : State).sp < State.reset.cfg.stackDepth ∧
    ({ State.reset with stack := List.replicate 16 0x202 } : State).sp = State.reset.cfg.stackDepth := by decide

theorem witness_ReturnGoesBackBehindTheCall :
    ∃ s t u : State, s.sp < s.cfg.stackDepth ∧ exec (.call 0x208) s = .next t ∧ u.stack = t.stack ∧ u ≠ t :=
  ⟨State.reset, _, { (State.reset.setStack [0x200]).setPc 0x300 with DT := 1 }, by decide, rfl, rfl, by decide⟩

/-- The default parameters, and the largest font address the model accepts. -/
theorem witness_FontAddressFollowsTheFormula :
    validConfig State.reset.cfg = true ∧
    validConfig { defaultConfig with fontOffset := 432, fontStride := 244 } = true := by decide

/-- DecimalConversionStoresThreeDigits: `B + 2` at 4095 and at 4096. -/
theorem witness_DecimalConversionStoresThreeDigits :
    Memory.wf (background State.reset.cfg) State.reset.mem ∧ (start [] 0xFFD).base + 2 ≤ 4095 ∧
    4095 < (start [] 0xFFE).base + 2 := by decide

/-- BlockStoreWritesRegistersInOrder and BlockLoadReadsRegistersInOrder: the last index at 4095 and at 4096, an index
within the block, an address beside it. -/
theorem witness_BlockStoreWritesRegistersInOrder :
    Memory.wf (background State.reset.cfg) State.reset.mem ∧ (start [] 0xFFC).base + (3 : Nibble).toNat ≤ 4095 ∧
    4095 < (start [] 0xFFD).base + (3 : Nibble).toNat ∧
    ((2 : Nibble).toNat ≤ (3 : Nibble).toNat ∧ (start [] 0xFFD).base + (2 : Nibble).toNat ≤ 4095) ∧
    0xFFC < (start [] 0xFFD).base ∧ (2 : Nibble).toNat < (3 : Nibble).toNat := by decide

theorem witness_AStoreIsSeenByTheNextFetch :
    ∃ s t : State, Memory.wf (background s.cfg) s.mem ∧ s.base + (1 : Nibble).toNat ≤ 4095 ∧
      (0 : Nibble).toNat + 1 ≤ (1 : Nibble).toNat ∧ s.pc.toNat = s.base + (0 : Nibble).toNat ∧
      exec (.storeRegs 1) s = .next t :=
  ⟨(start [(0, 0x12), (1, 0x0A)] 0x208).setPc 0x208, _, by decide, by decide, by decide, by decide, rfl⟩

/-- The last sprite byte at 4095 and at 4096, no rows, a pixel hit and set, one hit and clear, one not hit. -/
theorem witness_DrawInvertsThePixelsOfTheClippedSprite :
    (0 : Nibble).toNat = 0 ∧ (start [] 0xFFF).base + (1 : Nibble).toNat - 1 ≤ 4095 ∧
    ((2 : Nibble).toNat > 0 ∧ 4095 < (start [] 0xFFF).base + (2 : Nibble).toNat - 1) ∧
    (start [] 80).spriteHits 0 0 1 0 0 ∧ ¬(start [] 80).spriteHits 0 0 1 0 4 ∧
    ({ start [] 80 with display := Display.blank.setPixel 0 0 true } : State).display.pixel 0 0 = true := by
  simp only [State.spriteHits]; decide

theorem witness_DrawingTwiceRestoresTheDisplay :
    (0 : Nibble) ≠ 15 ∧ (1 : Nibble) ≠ 15 ∧ (start [] 80).base + (5 : Nibble).toNat - 1 ≤ 4095 ∧
    ∃ r c, (start [] 80).spriteHits 0 1 5 r c ∧ (start [] 80).display.pixel r c = false :=
  ⟨by decide, by decide, by decide, 0, 0, by simp only [State.spriteHits]; decide, by decide⟩

theorem witness_WaitForKeyPollsTheLastKey :
    ({ State.reset with inputs := ⟨0, 8, some 3⟩ } : State).inputs.lastKey = some 3 ∧ State.reset.inputs.lastKey = none := by
  decide

/-- OnlyNamedRegistersChange, OnlyStoredBytesChange, OnlyNamedInstructionsChangeTheRest. -/
theorem witness_OnlyNamedRegistersChange :
    ∃ s t : State, exec (.ldB 2) s = .next t ∧ mayWriteReg (.ldB 2) 2 = false ∧ mayStoreAt (.ldB 2) s (s.base + 3) = false ∧
      writesIndex (.ldB 2) = false :=
  ⟨(State.reset.setReg 2 123).setI 0x300, _, rfl, rfl, by decide, rfl⟩

theorem witness_InstructionsRaiseExactlyWhenTheyShould :
    ∃ s t u : State, s.halted = false ∧ s.fault = none ∧ exec .ret s = .next t ∧ raises .ret s = some .stackUnderflow ∧
      exec .cls s = .next u ∧ raises .cls s = none :=
  ⟨State.reset, _, _, rfl, rfl, rfl, rfl, rfl, rfl⟩

theorem witness_TheChangedFlagIsNeverRead :
    ∃ s t u : State, exec (.drw 0 0 5) s = .next t ∧ exec (.drw 0 0 5) { s with changed := true } = .next u :=
  ⟨start [] 80, _, _, rfl, rfl⟩

theorem witness_OnlyFourInstructionsReadTheInputs :
    ∃ s t u : State, readsInputs (.addReg 0 1) = false ∧ exec (.addReg 0 1) s = .next t ∧
      exec (.addReg 0 1) { s with inputs := ⟨1, 2, some 1⟩ } = .next u :=
  ⟨State.reset, _, _, rfl, rfl, rfl⟩

theorem witness_AFinishedProgramStaysFinished : (withBytes State.reset 0x200 [0x12, 0x00]).finished = true := by decide

end Sys2Proof.Tests
end

section
/-! SUPPORT. What `Execute` can do, said once: the block transfers in closed form, RET and LD Vx, K by case, the bounds
of a written `I`, and one relation of the shapes an instruction's next state can have. -/

namespace Sys2Proof.Machine

/-! ### The block transfers -/

/-- `s` with `V[0]` to `V[x]` stored from `B` on, as far as memory reaches (R184). -/
def State.storeBlock (s : State) (x : Nibble) : State :=
  { s with mem := (State.blockStore s.base (x.toNat + 1) 0 s).1.mem }

/-- `s` with `V[0]` to `V[x]` loaded from `B` on, as far as memory reaches (R185). -/
def State.loadBlock (s : State) (x : Nibble) : State :=
  { s with V := (State.blockLoad s.base (x.toNat + 1) 0 s).1.V }

theorem State.storeBlock_eq (s : State) (x : Nibble) :
    s.storeBlock x = (State.blockStore s.base (x.toNat + 1) 0 s).1 :=
  (State.blockStore_eq s.base (x.toNat + 1) 0 s).symm

theorem State.loadBlock_eq (s : State) (x : Nibble) :
    s.loadBlock x = (State.blockLoad s.base (x.toNat + 1) 0 s).1 :=
  (State.blockLoad_eq s.base (x.toNat + 1) 0 s).symm

/-- LD [I], Vx is the block store, with a `MemoryFault` after it where memory ends too early (R184, R249). -/
theorem exec_storeRegs (x : Nibble) (s : State) :
    exec (.storeRegs x) s = .next (if s.base + x.toNat ≤ 4095 then s.storeBlock x
      else (s.storeBlock x).raiseIn (.storeRegs x) .memoryFault) := by
  have hc := State.blockStore_complete s.base (x.toNat + 1) 0 s
  simp only [exec, execStoreRegs, finishBlock, hc, decide_eq_true_eq, State.storeBlock_eq]
  exact congrArg _ (if_congr (by omega) rfl rfl)

/-- LD Vx, [I] is the block load, with a `MemoryFault` after it where memory ends too early (R185, R249). -/
theorem exec_loadRegs (x : Nibble) (s : State) :
    exec (.loadRegs x) s = .next (if s.base + x.toNat ≤ 4095 then s.loadBlock x
      else (s.loadBlock x).raiseIn (.loadRegs x) .memoryFault) := by
  have hc := State.blockLoad_complete s.base (x.toNat + 1) 0 s
  simp only [exec, execLoadRegs, finishBlock, hc, decide_eq_true_eq, State.loadBlock_eq]
  exact congrArg _ (if_congr (by omega) rfl rfl)

/-- The memory a block store leaves is a function of the registers, the memory and the parameters. -/
theorem State.blockStore_mem_congr {s u : State} (hV : u.V = s.V) (hm : u.mem = s.mem) (hc : u.cfg = s.cfg)
    (B left i : Nat) : (State.blockStore B left i u).1.mem = (State.blockStore B left i s).1.mem := by
  induction left generalizing i s u with
  | zero => exact hm
  | succ n ih =>
    simp only [State.blockStore, State.memWrite]
    by_cases h : B + i > 4095
    · simpa only [if_pos h] using hm
    · simp only [if_neg h]
      refine ih (s := s.setByte _ _) (u := u.setByte _ _) hV ?_ hc _
      rw [setByte_mem, setByte_mem, hm, hc, State.reg_congr hV]

/-- The registers a block load leaves are a function of the registers, the memory and the parameters. -/
theorem State.blockLoad_V_congr {s u : State} (hV : u.V = s.V) (hm : u.mem = s.mem) (hc : u.cfg = s.cfg)
    (B left i : Nat) : (State.blockLoad B left i u).1.V = (State.blockLoad B left i s).1.V := by
  induction left generalizing i s u with
  | zero => exact hV
  | succ n ih =>
    simp only [State.blockLoad, State.memRead]
    by_cases h : B + i > 4095
    · simpa only [if_pos h] using hV
    · simp only [if_neg h]
      refine ih (s := s.setReg _ _) (u := u.setReg _ _) ?_ hm hc _
      rw [setReg_V, setReg_V, hV, State.byteAt_congr hc hm]

/-! ### RET and LD Vx, K by case -/

theorem exec_ret_of_nil {s : State} (h : s.stack = []) : exec .ret s = .next (s.raiseIn .ret .stackUnderflow) := by
  simp only [exec, execRet, h]

theorem exec_ret_of_cons {s : State} {f : Word} {frames : List Word} (h : s.stack = f :: frames) :
    exec .ret s = .next ((s.setStack frames).setPc f) := by
  simp only [exec, execRet, h]

theorem exec_ldVxK_of_none {s : State} (x : Nibble) (h : s.inputs.lastKey = none) :
    exec (.ldVxK x) s = .next (s.setPc (s.pc - 2)) := by
  simp only [exec, execLdVxK, h]

theorem exec_ldVxK_of_some {s : State} (x : Nibble) {k : Nibble} (h : s.inputs.lastKey = some k) :
    exec (.ldVxK x) s = .next (s.setReg x (keyByte k)) := by
  simp only [exec, execLdVxK, h]

/-! ### The values written to `I` -/

/-- Masking to 12 bits leaves at most 0x0FFF (R31, R181). -/
theorem toNat_and_0FFF_le (w : Word) : (w &&& 0x0FFF).toNat ≤ 0x0FFF := by
  rw [BitVec.toNat_and]; exact Nat.and_le_right

theorem toNat_imm12_le (nnn : Imm12) : (imm12 nnn).toNat ≤ 0x0FFF := by
  rw [imm12, BitVec.toNat_setWidth]; omega

/-- Accepted parameters keep every font address inside 12 bits (log entry 7). -/
theorem toNat_fontAddress_le {s : State} (h : validConfig s.cfg = true) (digit : Nibble) :
    (s.fontAddress digit).toNat ≤ 0x0FFF := by
  simp only [validConfig, Bool.and_eq_true, decide_eq_true_eq] at h
  obtain ⟨⟨-, hstride⟩, -⟩ := h
  have hdigit : s.cfg.fontStride * digit.toNat ≤ s.cfg.fontStride * 15 :=
    Nat.mul_le_mul_left _ (Nat.le_of_lt_succ digit.isLt)
  rw [State.fontAddress, BitVec.toNat_ofNat]
  omega

/-! ### The shapes of a next state -/

/-- `Effect s i t`: `t` is a state `Execute(i)` may leave `s` in, by the shared operation that makes it. A shape says
which elements change and when; the values written stay open where no invariant rests on them. -/
inductive Effect (s : State) : Instr → State → Prop
  | raised {i : Instr} {c : Cause} (h : raises i s = some c) : Effect s i (s.raiseIn i c)
  | jumped {i : Instr} {v : Word} : Effect s i (s.setPc v)
  | skipped {i : Instr} {b : Bool} : Effect s i (s.skip b)
  | returned {f : Word} {frames : List Word} (h : s.stack = f :: frames) :
      Effect s .ret ((s.setStack frames).setPc f)
  | called {nnn : Imm12} (h : s.sp < s.cfg.stackDepth) :
      Effect s (.call nnn) ((s.setStack (s.pc :: s.stack)).setPc (imm12 nnn))
  | wroteReg {i : Instr} {x : Nibble} {v : Byte} (h : mayWriteReg i x = true) : Effect s i (s.setReg x v)
  | wroteRegAndFlag {i : Instr} {x : Nibble} {v : Byte} {g : Bool} (h : mayWriteReg i x = true)
      (hF : mayWriteReg i regVF = true) : Effect s i (s.writeWithFlag x v g)
  | wroteDT {x : Nibble} {v : Byte} : Effect s (.ldDtVx x) (s.setDT v)
  | wroteST {x : Nibble} {v : Byte} : Effect s (.ldStVx x) (s.setST v)
  | wroteIndex {i : Instr} {v : Word} (h : writesIndex i = true)
      (hv : validConfig s.cfg = true → v.toNat ≤ 0x0FFF) : Effect s i (s.setI v)
  | wroteIndexAndFlag {x : Nibble} {v : Word} (hv : v.toNat ≤ 0x0FFF) :
      Effect s (.addI x) ((s.setVF true).setI v)
  | cleared : Effect s .cls (s.setDisplay Display.blank true)
  | drew {x y n : Nibble} {g b : Bool} {d : Display} : Effect s (.drw x y n) ((s.setVF g).setDisplay d b)
  | storedDigits {x : Nibble} {a b c : Byte} (h : s.base + 2 ≤ 4095) :
      Effect s (.ldB x) (((s.setByte s.base a).setByte (s.base + 1) b).setByte (s.base + 2) c)
  | stored {x : Nibble} (h : s.base + x.toNat ≤ 4095) : Effect s (.storeRegs x) (s.storeBlock x)
  | storeCutShort {x : Nibble} (h : 4095 < s.base + x.toNat) :
      Effect s (.storeRegs x) ((s.storeBlock x).raiseIn (.storeRegs x) .memoryFault)
  | loaded {x : Nibble} (h : s.base + x.toNat ≤ 4095) : Effect s (.loadRegs x) (s.loadBlock x)
  | loadCutShort {x : Nibble} (h : 4095 < s.base + x.toNat) :
      Effect s (.loadRegs x) ((s.loadBlock x).raiseIn (.loadRegs x) .memoryFault)

/-- Every instruction answers a next state, and by one of these operations. -/
theorem exec_next_effect (i : Instr) (s : State) : ∃ t, exec i s = .next t ∧ Effect s i t := by
  cases i with
  | cls => exact ⟨_, rfl, .cleared⟩
  | jp | jpV0 => exact ⟨_, rfl, .jumped⟩
  | seImm | sneImm | seReg | sneReg | skp | sknp => exact ⟨_, rfl, .skipped⟩
  | ldImm | addImm | ldReg | or | and | xor | rnd | ldVxDt =>
    exact ⟨_, rfl, .wroteReg (by simp [mayWriteReg])⟩
  | addReg | sub | shr | subn | shl =>
    exact ⟨_, rfl, .wroteRegAndFlag (by simp [mayWriteReg]) (by simp [mayWriteReg, regVF])⟩
  | ldDtVx => exact ⟨_, rfl, .wroteDT⟩
  | ldStVx => exact ⟨_, rfl, .wroteST⟩
  | ldI nnn => exact ⟨_, rfl, .wroteIndex rfl fun _ => toNat_imm12_le nnn⟩
  | ldF x => exact ⟨_, rfl, .wroteIndex rfl fun h => toNat_fontAddress_le h _⟩
  | ret =>
    cases h : s.stack with
    | nil => exact ⟨_, exec_ret_of_nil h, .raised (by simp [raises, State.sp, h])⟩
    | cons => exact ⟨_, exec_ret_of_cons h, .returned h⟩
  | call nnn =>
    refine ⟨_, rfl, ?_⟩
    split
    · next h => exact .raised (if_pos h)
    · next h => exact .called (Nat.lt_of_not_le h)
  | ldVxK x =>
    cases h : s.inputs.lastKey with
    | none => exact ⟨_, exec_ldVxK_of_none x h, .jumped⟩
    | some => exact ⟨_, exec_ldVxK_of_some x h, .wroteReg (by simp [mayWriteReg])⟩
  | addI x =>
    refine ⟨_, rfl, ?_⟩
    split
    · exact .wroteIndexAndFlag (toNat_and_0FFF_le _)
    · exact .wroteIndex rfl fun _ => toNat_and_0FFF_le _
  | drw x y n =>
    refine ⟨_, rfl, ?_⟩
    split
    · next h => exact .raised (if_pos h)
    · exact .drew
  | ldB x =>
    refine ⟨_, rfl, ?_⟩
    split
    · next h => exact .raised (if_pos h)
    · next h => exact .storedDigits (Nat.le_of_not_lt h)
  | storeRegs x =>
    refine ⟨_, exec_storeRegs x s, ?_⟩
    split
    · next h => exact .stored h
    · next h => exact .storeCutShort (Nat.lt_of_not_le h)
  | loadRegs x =>
    refine ⟨_, exec_loadRegs x s, ?_⟩
    split
    · next h => exact .loaded h
    · next h => exact .loadCutShort (Nat.lt_of_not_le h)

theorem effect_of_exec {i : Instr} {s t : State} (h : exec i s = .next t) : Effect s i t := by
  obtain ⟨u, hu, he⟩ := exec_next_effect i s
  obtain rfl : u = t := Host.Outcome.next.inj (hu.symm.trans h)
  exact he

end Sys2Proof.Machine
end

section
/-! PROOFS. The invariants of the machine (O3, O4): each operation keeps them, so `Execute` does, and so every event. -/

namespace Sys2Proof.Machine

/-! ### The operations -/

theorem State.Inv.raise {s : State} (h : s.Inv) (c : Cause) (a : Word) (w : Option Word) : (s.raise c a w).Inv :=
  { h with haltRecord := rfl }

theorem State.Inv.raiseIn {s : State} (h : s.Inv) (i : Instr) (c : Cause) : (s.raiseIn i c).Inv :=
  h.raise c _ _

/-- The invariants say nothing of `pc`, the inputs, the schedule and the draw counter. -/
theorem State.Inv.withFree {s : State} (h : s.Inv) (pc : Word) (inputs : StepInputs) (pending : List Event)
    (draws : Nat) : State.Inv { s with pc := pc, inputs := inputs, pending := pending, draws := draws } :=
  { h with }

theorem State.Inv.skip {s : State} (h : s.Inv) (b : Bool) : (s.skip b).Inv := by
  rw [State.skip_eq]
  exact h.withFree _ _ _ _

theorem State.Inv.setByte {s : State} (h : s.Inv) {a : Nat} (ha : a < memSize) (v : Byte) : (s.setByte a v).Inv :=
  { h with memWf := State.setByte_wf h.memWf ha v }

theorem State.Inv.storeBlock {s : State} (h : s.Inv) (x : Nibble) : (s.storeBlock x).Inv :=
  { h with memWf := State.blockStore_wf _ _ _ s h.memWf }

theorem State.Inv.loadBlock {s : State} (h : s.Inv) (x : Nibble) : (s.loadBlock x).Inv :=
  { h with }

/-! ### The events -/

/-- Execution keeps the invariants. -/
theorem Effect.keeps_inv {s t : State} {i : Instr} (e : Effect s i t) (h : s.Inv) : t.Inv := by
  cases e with
  | raised => exact h.raiseIn _ _
  | skipped => exact h.skip _
  | jumped | wroteReg | wroteRegAndFlag | wroteDT | wroteST | cleared | drew => exact { h with }
  | returned hs =>
    have hb := h.stackBound
    rw [State.sp, hs, List.length_cons] at hb
    exact { h with stackBound := Nat.le_of_succ_le hb }
  | called hlt => exact { h with stackBound := hlt }
  | wroteIndex _ hv => exact { h with indexRange := hv h.cfgValid }
  | wroteIndexAndFlag hv => exact { h with indexRange := hv }
  | storedDigits hle =>
    exact ((h.setByte (by rw [memSize]; omega) _).setByte (by rw [memSize]; omega) _).setByte
      (by rw [memSize]; omega) _
  | stored => exact h.storeBlock _
  | storeCutShort => exact (h.storeBlock _).raiseIn _ _
  | loaded => exact h.loadBlock _
  | loadCutShort => exact (h.loadBlock _).raiseIn _ _

theorem State.Inv.reboot {s : State} (h : s.Inv) {image : List Byte} (hl : image.length ≤ maxImage) :
    (s.reboot image).Inv where
  cfgValid := h.cfgValid
  memWf := Memory.ofImage_wf (by rw [maxImage] at hl; rw [programBase, memSize]; omega)
  indexRange := Nat.zero_le _
  stackBound := Nat.zero_le _
  haltRecord := rfl

/-- A `Step` leaves a halted engine as it is, raises for the fetch or for an illegal word, or executes (R120, R121). -/
theorem stepEvent_keeps_inv {s t : State} {inputs : StepInputs} (h : s.Inv) (ht : stepEvent inputs s = .next t) :
    t.Inv := by
  rw [stepEvent] at ht
  split at ht
  · cases ht; exact h
  split at ht
  · cases ht; exact (h.withFree _ _ _ _).raise _ _ _
  rw [runWord] at ht
  split at ht
  · exact (effect_of_exec ht).keeps_inv (h.withFree _ _ _ _)
  · cases ht; exact (h.withFree _ _ _ _).raise _ _ _

theorem applyEvent_keeps_inv {s t : State} {e : Event} (h : s.Inv) (ht : applyEvent e s = .next t) : t.Inv := by
  cases e with
  | reset image =>
    simp only [applyEvent, resetEvent] at ht
    split at ht
    · cases ht
    next hl =>
    split at ht
    · cases ht
    · cases ht; exact h.reboot (Nat.le_of_not_lt hl)
  | step => exact stepEvent_keeps_inv h ht
  | tick =>
    simp only [applyEvent, tickEvent] at ht
    split at ht
    · cases ht
    · cases ht; exact { h with }
  | displayConsumed =>
    simp only [applyEvent, displayConsumedEvent] at ht
    split at ht
    · cases ht
    · cases ht; exact { h with }

/-- Settles O3: the reset memory is the empty list, the reset stack is empty. -/
theorem resetStateMeetsTheInvariants : Obligations.ResetStateMeetsTheInvariants where
  cfgValid := by decide
  memWf := ⟨List.Pairwise.nil, by simp [State.reset]⟩
  indexRange := Nat.zero_le _
  stackBound := Nat.zero_le _
  haltRecord := rfl

/-- Settles O4: each event keeps the invariants, and dequeuing one or drawing free inputs touches none of them. -/
theorem everyStepKeepsTheInvariants : Obligations.EveryStepKeepsTheInvariants := by
  intro s t h ht
  rw [step, nextEvent] at ht
  split at ht
  · exact applyEvent_keeps_inv (h.withFree _ _ _ _) ht
  split at ht
  · cases ht
  · exact stepEvent_keeps_inv (h.withFree _ _ _ _) ht

end Sys2Proof.Machine
end

section
/-! PROOFS. Frames of execution (O48, O50), read off the shapes of a next state. -/

namespace Sys2Proof.Machine

theorem ne_of_mayWriteReg {i : Instr} {r x : Nibble} (hr : mayWriteReg i r = false) (hx : mayWriteReg i x = true) :
    r ≠ x := by
  rintro rfl
  exact Bool.false_ne_true (hr.symm.trans hx)

/-- A block load leaves the registers above `V[x]` alone (R185). -/
theorem State.reg_loadBlock_of_gt (s : State) {x r : Nibble} (h : x.toNat < r.toNat) :
    (s.loadBlock x).reg r = s.reg r := by
  rw [State.loadBlock_eq]
  exact State.reg_blockLoad_of_out _ _ _ s (by omega) (by omega)

/-- Settles O48: the shapes that write a register name one the instruction may write. -/
theorem onlyNamedRegistersChange : Obligations.OnlyNamedRegistersChange := by
  intro i s t r h hr
  cases effect_of_exec h with
  | raised | jumped | returned | called | wroteDT | wroteST | wroteIndex | cleared => rfl
  | storedDigits | stored | storeCutShort => rfl
  | skipped => exact s.reg_skip _ r
  | wroteReg hx => exact s.reg_setReg_of_ne _ (ne_of_mayWriteReg hr hx)
  | wroteRegAndFlag hx hF =>
    rw [State.reg_writeWithFlag, if_neg (ne_of_mayWriteReg hr hF), if_neg (ne_of_mayWriteReg hr hx)]
  | wroteIndexAndFlag | drew => exact s.reg_setVF_of_ne _ (ne_of_mayWriteReg hr rfl)
  | loaded | loadCutShort =>
    have hgt : _ < r.toNat := Nat.lt_of_not_le (of_decide_eq_false hr)
    exact s.reg_loadBlock_of_gt hgt

namespace Effect
variable {s t : State} {i : Instr} (e : Effect s i t)
include e

theorem index_eq (h : writesIndex i = false) : t.I = s.I := by
  cases e with
  | wroteIndex hw => exact absurd (h.symm.trans hw) Bool.false_ne_true
  | wroteIndexAndFlag => cases h
  | skipped => exact s.skip_I _
  | _ => rfl

theorem stack_eq (hcall : ∀ nnn, i ≠ .call nnn) (hret : i ≠ .ret) : t.stack = s.stack := by
  cases e with
  | called => exact absurd rfl (hcall _)
  | returned => exact absurd rfl hret
  | skipped => exact s.skip_stack _
  | _ => rfl

theorem dt_eq (h : ∀ x, i ≠ .ldDtVx x) : t.DT = s.DT := by
  cases e with
  | wroteDT => exact absurd rfl (h _)
  | skipped => exact s.skip_DT _
  | _ => rfl

theorem st_eq (h : ∀ x, i ≠ .ldStVx x) : t.ST = s.ST := by
  cases e with
  | wroteST => exact absurd rfl (h _)
  | skipped => exact s.skip_ST _
  | _ => rfl

theorem display_eq (hcls : i ≠ .cls) (hdrw : ∀ x y n, i ≠ .drw x y n) :
    t.display = s.display ∧ t.changed = s.changed := by
  cases e with
  | cleared => exact absurd rfl hcls
  | drew => exact absurd rfl (hdrw _ _ _)
  | skipped => exact ⟨s.skip_display _, s.skip_changed _⟩
  | _ => exact ⟨rfl, rfl⟩

/-- Execution writes neither the parameters nor the inputs nor the schedule (log entries 9 to 11). -/
theorem environment_eq : t.cfg = s.cfg ∧ t.inputs = s.inputs ∧ t.pending = s.pending := by
  cases e with
  | skipped => exact ⟨s.skip_cfg _, s.skip_inputs _, s.skip_pending _⟩
  | _ => exact ⟨rfl, rfl, rfl⟩

end Effect

/-- Settles O50, one frame lemma an element. -/
theorem onlyNamedInstructionsChangeTheRest : Obligations.OnlyNamedInstructionsChangeTheRest := by
  intro i s t h
  have e := effect_of_exec h
  exact ⟨e.index_eq, e.stack_eq, e.dt_eq, e.st_eq, e.display_eq, e.environment_eq⟩

end Sys2Proof.Machine
end

section
/-! PROOFS. No instruction reads `changed` (O52). -/

namespace Sys2Proof.Machine

/-- `s` with its `changed` flag replaced. -/
def State.withChanged (s : State) (b : Bool) : State := { s with changed := b }

theorem State.storeBlock_withChanged (s : State) (b : Bool) (x : Nibble) :
    (s.withChanged b).storeBlock x = (s.storeBlock x).withChanged b := by
  have h := State.blockStore_mem_congr (s := s) (u := s.withChanged b) rfl rfl rfl s.base (x.toNat + 1) 0
  exact congrArg (fun m => { s.withChanged b with mem := m }) h

theorem State.loadBlock_withChanged (s : State) (b : Bool) (x : Nibble) :
    (s.withChanged b).loadBlock x = (s.loadBlock x).withChanged b := by
  have h := State.blockLoad_V_congr (s := s) (u := s.withChanged b) rfl rfl rfl s.base (x.toNat + 1) 0
  exact congrArg (fun V => { s.withChanged b with V := V }) h

/-- A branch on a condition that does not read `changed`. -/
theorem ite_withChanged {p : Prop} [Decidable p] {t u t' u' : State} {b : Bool} (ht : t' = t.withChanged b)
    (hu : u' = u.withChanged b) : (if p then t' else u') = (if p then t else u).withChanged b := by
  rw [ht, hu, apply_ite (State.withChanged · b)]

/-- Replacing `changed` before an instruction changes the state it leaves in `changed` only. -/
theorem exec_withChanged (i : Instr) (s : State) (b : Bool) :
    ∃ t c, exec i s = .next t ∧ exec i (s.withChanged b) = .next (t.withChanged c) := by
  cases i with
  | ret =>
    cases h : s.stack with
    | nil => exact ⟨_, b, exec_ret_of_nil h, exec_ret_of_nil (s := s.withChanged b) h⟩
    | cons => exact ⟨_, b, exec_ret_of_cons h, exec_ret_of_cons (s := s.withChanged b) h⟩
  | ldVxK x =>
    cases h : s.inputs.lastKey with
    | none => exact ⟨_, b, exec_ldVxK_of_none x h, exec_ldVxK_of_none (s := s.withChanged b) x h⟩
    | some => exact ⟨_, b, exec_ldVxK_of_some x h, exec_ldVxK_of_some (s := s.withChanged b) x h⟩
  | seImm | sneImm | seReg | sneReg | skp | sknp | call | ldB =>
    exact ⟨_, b, rfl, congrArg Host.Outcome.next (ite_withChanged rfl rfl)⟩
  | addI x =>
    let sum : Word := BitVec.ofNat 16 (s.I.toNat + (s.reg x).toNat) &&& 0x0FFF
    have h := ite_withChanged (p := indexOverflow s.I (s.reg x) = true) (t := s.setVF true) (u := s) (b := b) rfl rfl
    exact ⟨_, b, rfl, congrArg (fun t : State => Host.Outcome.next (t.setI sum)) h⟩
  | drw x y n =>
    by_cases h : n.toNat > 0 ∧ s.base + n.toNat - 1 > 4095
    · exact ⟨_, b, congrArg Host.Outcome.next (if_pos h), congrArg Host.Outcome.next (if_pos h)⟩
    · exact ⟨_, _, congrArg Host.Outcome.next (if_neg h), congrArg Host.Outcome.next (if_neg h)⟩
  | storeRegs x =>
    refine ⟨_, b, exec_storeRegs x s, (exec_storeRegs x (s.withChanged b)).trans (congrArg _ ?_)⟩
    rw [State.storeBlock_withChanged]
    exact ite_withChanged rfl rfl
  | loadRegs x =>
    refine ⟨_, b, exec_loadRegs x s, (exec_loadRegs x (s.withChanged b)).trans (congrArg _ ?_)⟩
    rw [State.loadBlock_withChanged]
    exact ite_withChanged rfl rfl
  | cls => exact ⟨_, true, rfl, rfl⟩
  | _ => exact ⟨_, b, rfl, rfl⟩

/-- Settles O52: `exec` is a function, so `exec_withChanged` speaks of both runs. -/
theorem theChangedFlagIsNeverRead : Obligations.TheChangedFlagIsNeverRead := by
  intro i s t u b ht hu
  obtain ⟨t', c, ht', hu'⟩ := exec_withChanged i s b
  obtain rfl : t' = t := Host.Outcome.next.inj (ht'.symm.trans ht)
  obtain rfl : t'.withChanged c = u := Host.Outcome.next.inj (hu'.symm.trans hu)
  rfl

end Sys2Proof.Machine
end

section
/-! PROOFS. The events `Tick` and `Reset` (O16, O2, O1) and the random byte (O33). -/

namespace Sys2Proof.Machine

/-! ### Ticks -/

theorem toNat_countDown (t : Byte) : (countDown t).toNat = t.toNat - 1 := by
  rw [countDown]
  split
  · next h => exact BitVec.toNat_sub_of_le (show 1 ≤ t from h)
  · next h => omega

/-- A step that takes a scheduled `Tick` (R262). -/
theorem step_of_tick {s : State} {rest : List Event} (hh : s.halted = false) (hp : s.pending = .tick :: rest) :
    step s = .next { s with DT := countDown s.DT, ST := countDown s.ST, pending := rest } := by
  simp only [step, nextEvent, hp, applyEvent, tickEvent, hh]
  rfl

theorem run_succ {s t : State} (h : step s = .next t) (n : Nat) :
    Host.Core.run core (n + 1) s = Host.Core.run core n t := by
  have h' : core.step s = .next t := h
  simp only [Host.Core.run, h']

/-- Settles O16, by induction on the number of ticks. -/
theorem manyTicksStopAtZero : Obligations.ManyTicksStopAtZero := by
  intro n
  induction n with
  | zero =>
    rintro s rest - hp
    obtain rfl : s.pending = rest := hp
    exact ⟨s, rfl, rfl, rfl, rfl⟩
  | succ n ih =>
    intro s rest hh hp
    obtain ⟨t, hrun, ht, hDT, hST⟩ := ih { s with DT := countDown s.DT, ST := countDown s.ST,
                                                  pending := List.replicate n .tick ++ rest } rest hh rfl
    refine ⟨t, (run_succ (step_of_tick hh hp) n).trans hrun, ht, ?_, ?_⟩
    · rw [hDT, toNat_countDown, Nat.sub_sub, Nat.add_comm]
    · rw [hST, toNat_countDown, Nat.sub_sub, Nat.add_comm]

/-! ### Reset -/

/-- The reset content of memory: the font table at FONT_OFFSET, zero elsewhere (R281). -/
theorem background_eq (c : Config) (a : Nat) : background c a =
    if c.fontOffset ≤ a ∧ a < c.fontOffset + 80 then c.fontTable.toList.getD (a - c.fontOffset) 0 else 0 := by
  simp [background, List.getD_eq_getElem?_getD]

theorem reg_reboot (s : State) (image : List Byte) (x : Nibble) : (s.reboot image).reg x = 0 :=
  Vector.getElem_replicate x.isLt

theorem pixel_reboot (s : State) (image : List Byte) (r c : Nat) : (s.reboot image).display.pixel r c = false :=
  Display.pixel_blank r c

/-- Memory after `Reset(image)` (R281). -/
theorem byteAt_reboot (s : State) (image : List Byte) (a : Nat) : (s.reboot image).byteAt a =
    if 512 ≤ a ∧ a < 512 + image.length then image.getD (a - 512) 0 else background s.cfg a := by
  refine (Memory.peek_ofImage (bg := background s.cfg) programBase image a).trans ?_
  rw [programBase]
  by_cases hlo : 512 ≤ a
  · rw [if_pos hlo]
    by_cases hhi : a < 512 + image.length
    · rw [if_pos ⟨hlo, hhi⟩, List.getD_eq_getElem _ _ (by omega), List.getElem?_eq_getElem (by omega),
        Option.getD_some]
    · rw [if_neg fun h => hhi h.2, List.getElem?_eq_none (by omega), Option.getD_none]
  · rw [if_neg hlo, if_neg fun h => hlo h.1]

theorem resetEvent_of_le {s : State} {image : List Byte} (hl : image.length ≤ maxImage)
    (hc : validConfig s.cfg = true) : applyEvent (.reset image) s = .next (s.reboot image) := by
  simp only [applyEvent, resetEvent, if_neg (Nat.not_lt.mpr hl), hc]
  rfl

/-- Settles O2: the state is `State.reboot`, read element by element. -/
theorem resetEventBuildsTheState : Obligations.ResetEventBuildsTheState := by
  refine fun s image => ⟨fun hl => if_pos hl, fun hl hc => ?_⟩
  refine ⟨_, resetEvent_of_le hl hc, reg_reboot s image, rfl, rfl, rfl, rfl, rfl, pixel_reboot s image, rfl, rfl, rfl,
    rfl, fun a _ => ?_⟩
  rw [byteAt_reboot, background_eq]

/-- Settles O1: the reset state is, by definition, `State.reset.reboot []`. -/
theorem resetStateIsAsListed : Obligations.ResetStateIsAsListed :=
  ⟨reg_reboot State.reset [], rfl, rfl, rfl, rfl, rfl, pixel_reboot State.reset [], rfl, rfl, rfl,
    fun a _ => background_eq defaultConfig a⟩

/-! ### RND -/

theorem acceptedMap_default : AcceptedMap defaultOpcodeMap := acceptedMap (by decide)

/-- Under an accepted map the word of an RND is that RND (R94, R96). -/
theorem decode_formatXNN_rnd {m : OpcodeMap} (h : AcceptedMap m) (strict : Bool) (x : Nibble) (nn : Byte) :
    decode m strict (formatXNN m.rnd x nn) = .instr (.rnd x nn) := by
  have hop : fieldOp (formatXNN m.rnd x nn) ∈ opNumbers m := by simp [opNumbers]
  rw [decode_of_op h hop, decodeOp, fieldOp_formatXNN, fieldX_formatXNN, fieldNN_formatXNN]
  exact dispatch_of_mem h.opsNodup (by simp)

/-- Settles O33: RND writes `V[x]` only, with `rnd AND nn`. -/
theorem randomIsMaskedByNn : Obligations.RandomIsMaskedByNn := by
  intro x nn s
  refine ⟨⟨rfl, fun strict => decode_formatXNN_rnd acceptedMap_default strict x nn⟩, _, rfl,
    ⟨rfl, rfl, fun r hr => s.reg_setReg_of_ne _ hr⟩, fun k _ => ?_⟩
  rw [State.reg_setReg_self, BitVec.getLsbD_and]

end Sys2Proof.Machine
end

section
/-! PROOFS. Memory and the fetch (O40, O49, O11): what a block store leaves at each address, the two outcomes of a fetch,
and the frame of memory over every instruction. -/

namespace Sys2Proof.Machine

/-! ### Bytes after a block store -/

/-- A block store puts `V[i]` at `B + i`, as far as memory reaches (R184). -/
theorem State.byteAt_storeBlock {s : State} (hw : Memory.wf (background s.cfg) s.mem) {x i : Nibble}
    (hi : i.toNat ≤ x.toNat) (ha : s.base + i.toNat ≤ 4095) :
    (s.storeBlock x).byteAt (s.base + i.toNat) = s.reg i := by
  have h := State.byteAt_blockStore s.base (x.toNat + 1) 0 i.toNat s hw (by omega) (by omega)
  rwa [Nat.add_zero, Nat.zero_add, BitVec.ofNat_toNat, BitVec.setWidth_eq, ← State.storeBlock_eq] at h

/-- A block store leaves every byte outside `B` to `B + x` alone (R65, R184). -/
theorem State.byteAt_storeBlock_of_out (s : State) {x : Nibble} {a : Nat} (h : a < s.base ∨ s.base + x.toNat < a) :
    (s.storeBlock x).byteAt a = s.byteAt a := by
  rw [State.storeBlock_eq]
  exact State.byteAt_blockStore_of_out _ _ _ s (by omega)

/-! ### The fetch (R62, R121) -/

theorem State.fetch_of_le {s : State} (h : s.pc.toNat ≤ 4094) :
    s.fetch = some (wordOfBytes s.cfg.fetchBigEndian (s.byteAt s.pc.toNat) (s.byteAt (s.pc.toNat + 1))) :=
  if_neg (Nat.not_lt.mpr h)

theorem State.fetch_of_gt {s : State} (h : 4094 < s.pc.toNat) : s.fetch = none :=
  if_pos h

/-- The word of two bytes as a number: the high half is the first byte under FETCH_BIG_ENDIAN, else the second. -/
theorem toNat_wordOfBytes (bigEndian : Bool) (b0 b1 : Byte) : (wordOfBytes bigEndian b0 b1).toNat =
    if bigEndian then 256 * b0.toNat + b1.toNat else 256 * b1.toNat + b0.toNat := by
  have happend (hi lo : Byte) : (hi ++ lo).toNat = 256 * hi.toNat + lo.toNat := by
    rw [BitVec.toNat_append, ← Nat.shiftLeft_add_eq_or_of_lt lo.isLt, Nat.shiftLeft_eq, Nat.mul_comm]
  cases bigEndian with
  | true => exact happend b0 b1
  | false => exact happend b1 b0

/-- A running engine that cannot fetch takes a `MemoryFault` with no word (R121, R245). -/
theorem stepEvent_of_fetch_none {s : State} (hh : s.halted = false) (hf : s.fetch = none) (inputs : StepInputs) :
    stepEvent inputs s = .next (State.raise { s with inputs := inputs } .memoryFault s.pc none) := by
  simp only [stepEvent, hh, hf]
  rfl

/-- Settles O11: the fetch by its two outcomes, the fault in the closed form of `State.raise`. -/
theorem fetchReadsThePairOrFaults : Obligations.FetchReadsThePairOrFaults := by
  intro s
  refine ⟨fun hle => ⟨_, State.fetch_of_le hle, fun hb => ?_, fun hb => ?_⟩, fun hgt hh inputs => ?_⟩
  · rw [toNat_wordOfBytes, if_pos hb]
  · rw [toNat_wordOfBytes, hb, if_neg Bool.false_ne_true]
  · exact ⟨_, stepEvent_of_fetch_none hh (State.fetch_of_gt hgt) inputs, rfl⟩

/-- Settles O40: the complete store keeps `pc` and the parameters, and the two bytes at `pc` are those of `V[k]` and
`V[k + 1]`. -/
theorem aStoreIsSeenByTheNextFetch : Obligations.AStoreIsSeenByTheNextFetch := by
  intro x k s t hw hx hk hpc ht
  rw [exec_storeRegs, if_pos hx] at ht
  obtain rfl : s.storeBlock x = t := Host.Outcome.next.inj ht
  have hk1 : (k + 1).toNat = k.toNat + 1 := BitVec.toNat_add_of_lt (show k.toNat + 1 < 16 by omega)
  have hlow : (s.storeBlock x).byteAt s.pc.toNat = s.reg k := by
    rw [hpc]
    exact State.byteAt_storeBlock hw (by omega) (by omega)
  have hhigh : (s.storeBlock x).byteAt (s.pc.toNat + 1) = s.reg (k + 1) := by
    rw [hpc, Nat.add_assoc, ← hk1]
    exact State.byteAt_storeBlock hw (by omega) (by omega)
  have hfetch : (s.storeBlock x).fetch = some (wordOfBytes s.cfg.fetchBigEndian ((s.storeBlock x).byteAt s.pc.toNat)
      ((s.storeBlock x).byteAt (s.pc.toNat + 1))) := State.fetch_of_le (show s.pc.toNat ≤ 4094 by omega)
  rw [hfetch, hlow, hhigh]

/-! ### The frame of memory (R65) -/

/-- The addresses `mayStoreAt` excludes for LD B and LD [I], Vx: those outside the range it tests. -/
theorem outside_of_range_eq_false {lo hi a : Nat} (h : (lo ≤ a && a ≤ hi : Bool) = false) : a < lo ∨ hi < a := by
  simpa only [Bool.and_eq_false_iff, decide_eq_false_iff_not, Nat.not_le] using h

/-- Settles O49: of the shapes of a next state, three store, each inside the addresses its instruction may store to. -/
theorem onlyStoredBytesChange : Obligations.OnlyStoredBytesChange := by
  intro i s t a h ha
  cases effect_of_exec h with
  | storedDigits =>
    have hout : a < s.base ∨ s.base + 2 < a := outside_of_range_eq_false ha
    rw [State.byteAt_setByte_of_ne _ _ (by omega), State.byteAt_setByte_of_ne _ _ (by omega),
      State.byteAt_setByte_of_ne _ _ (by omega)]
  | stored | storeCutShort => exact s.byteAt_storeBlock_of_out (outside_of_range_eq_false ha)
  | skipped => exact s.byteAt_skip _ a
  | _ => rfl

end Sys2Proof.Machine
end

section
/-! PROOFS. The decoder and the encoder (O5 to O8, O55): an answer of the decoder encodes back to the word under every
map, an encoded instruction decodes back under every accepted one, and what the rows of R96 select and which words are
illegal follows from the two. -/

namespace Sys2Proof

open Machine

/-! ### From a word to an instruction and back -/

section encodesBack
variable {m : OpcodeMap} {strict : Bool} {w : Word}

/-- An instruction answered for `w` is well-formed and `w` is its word. -/
def Decoded.EncodesBack (m : OpcodeMap) (strict : Bool) (w : Word) : Decoded → Prop
  | .instr i => encode m i = w ∧ i.wf strict = true
  | .invalidOpcode => True

/-- What a dispatch answers is `InvalidOpcode` or stands in a row with the key's number. -/
theorem dispatch_cases {α : Type} [DecidableEq α] {key : α} {rows : List (α × Decoded)} {P : Decoded → Prop}
    (hnone : P .invalidOpcode) (hrows : ∀ r ∈ rows, key = r.1 → P r.2) : P (dispatch key rows) := by
  cases h : dispatch key rows with
  | invalidOpcode => exact hnone
  | instr i => exact hrows _ (mem_of_dispatch h) rfl

variable {op : Nibble} {i : Instr}

theorem encodesBack_nnn (hi : encode m i = formatNNN op (fieldNNN w)) (hw : i.wf strict = true) (ho : fieldOp w = op) :
    (Decoded.instr i).EncodesBack m strict w :=
  ⟨by rw [hi, ← ho, formatNNN_fields], hw⟩

theorem encodesBack_xnn (hi : encode m i = formatXNN op (fieldX w) (fieldNN w)) (hw : i.wf strict = true)
    (ho : fieldOp w = op) : (Decoded.instr i).EncodesBack m strict w :=
  ⟨by rw [hi, ← ho, formatXNN_fields], hw⟩

theorem encodesBack_xyn (hi : encode m i = formatXYN op (fieldX w) (fieldY w) (fieldN w)) (hw : i.wf strict = true)
    (ho : fieldOp w = op) : (Decoded.instr i).EncodesBack m strict w :=
  ⟨by rw [hi, ← ho, formatXYN_fields], hw⟩

theorem encodesBack_xy {n : Nibble} (hi : encode m i = formatXYN op (fieldX w) (fieldY w) n) (hw : i.wf strict = true)
    (ho : fieldOp w = op) (hn : fieldN w = n) : (Decoded.instr i).EncodesBack m strict w :=
  encodesBack_xyn (hn ▸ hi) hw ho

theorem encodesBack_x {nn : Byte} (hi : encode m i = formatXNN op (fieldX w) nn) (hw : i.wf strict = true)
    (ho : fieldOp w = op) (hnn : fieldNN w = nn) : (Decoded.instr i).EncodesBack m strict w :=
  encodesBack_xnn (hnn ▸ hi) hw ho

theorem decodeSkip_encodesBack (hi : encode m i = formatXYN op (fieldX w) (fieldY w) (fieldN w))
    (hw : i.wf strict = ignOk strict (fieldN w)) (ho : fieldOp w = op) :
    (decodeSkip strict (fieldN w) i).EncodesBack m strict w := by
  rw [decodeSkip]
  split
  · next hign => exact encodesBack_xyn hi (hw.trans hign) ho
  · trivial

theorem decodeAlu_encodesBack (ho : fieldOp w = m.alu) :
    (decodeAlu m (fieldX w) (fieldY w) (fieldN w)).EncodesBack m strict w := by
  refine dispatch_cases trivial ?_
  simp only [List.forall_mem_cons]
  exact ⟨encodesBack_xy rfl rfl ho, encodesBack_xy rfl rfl ho, encodesBack_xy rfl rfl ho, encodesBack_xy rfl rfl ho,
    encodesBack_xy rfl rfl ho, encodesBack_xy rfl rfl ho, encodesBack_xy rfl rfl ho, encodesBack_xy rfl rfl ho,
    encodesBack_xy rfl rfl ho, List.forall_mem_nil _⟩

theorem decodeKey_encodesBack (ho : fieldOp w = m.key) :
    (decodeKey m (fieldX w) (fieldNN w)).EncodesBack m strict w := by
  refine dispatch_cases trivial ?_
  simp only [List.forall_mem_cons]
  exact ⟨encodesBack_x rfl rfl ho, encodesBack_x rfl rfl ho, List.forall_mem_nil _⟩

theorem decodeMisc_encodesBack (ho : fieldOp w = m.misc) :
    (decodeMisc m (fieldX w) (fieldNN w)).EncodesBack m strict w := by
  refine dispatch_cases trivial ?_
  simp only [List.forall_mem_cons]
  exact ⟨encodesBack_x rfl rfl ho, encodesBack_x rfl rfl ho, encodesBack_x rfl rfl ho, encodesBack_x rfl rfl ho,
    encodesBack_x rfl rfl ho, encodesBack_x rfl rfl ho, encodesBack_x rfl rfl ho, encodesBack_x rfl rfl ho,
    encodesBack_x rfl rfl ho, List.forall_mem_nil _⟩

theorem decodeOp_encodesBack : (decodeOp m strict w).EncodesBack m strict w := by
  refine dispatch_cases trivial ?_
  simp only [List.forall_mem_cons]
  exact ⟨encodesBack_nnn rfl rfl, encodesBack_nnn rfl rfl, encodesBack_xnn rfl rfl, encodesBack_xnn rfl rfl,
    decodeSkip_encodesBack rfl rfl, encodesBack_xnn rfl rfl, encodesBack_xnn rfl rfl, decodeAlu_encodesBack,
    decodeSkip_encodesBack rfl rfl, encodesBack_nnn rfl rfl, encodesBack_nnn rfl rfl, encodesBack_xnn rfl rfl,
    encodesBack_xyn rfl rfl, decodeKey_encodesBack, decodeMisc_encodesBack, List.forall_mem_nil _⟩

theorem decode_encodesBack : (decode m strict w).EncodesBack m strict w := by
  rw [decode]
  split
  · next hcls => exact ⟨hcls.symm, rfl⟩
  split
  · next hret => exact ⟨hret.symm, rfl⟩
  · exact decodeOp_encodesBack

theorem encode_of_decode (h : decode m strict w = .instr i) : encode m i = w ∧ i.wf strict = true := by
  have hback : (decode m strict w).EncodesBack m strict w := decode_encodesBack
  rwa [h] at hback

end encodesBack

/-! ### From an instruction to its word and back -/

/-- Under STRICT_LOW_NIBBLE a register skip with a nonzero low nibble is illegal (R98). -/
theorem decodeSkip_eq_ite (strict : Bool) (n : Nibble) (i : Instr) :
    decodeSkip strict n i = if strict = true ∧ n ≠ 0 then .invalidOpcode else .instr i := by
  cases strict <;> simp [decodeSkip, ignOk]

namespace AcceptedMap
variable {m : OpcodeMap} (h : AcceptedMap m) (strict : Bool)
include h

theorem decode_seReg (x y ign : Nibble) :
    decode m strict (formatXYN m.seReg x y ign) = decodeSkip strict ign (.seReg x y ign) := by
  rw [decode_of_op h (by simp [opNumbers]), decodeOp]
  exact dispatch_of_mem h.opsNodup (by simp)

theorem decode_sneReg (x y ign : Nibble) :
    decode m strict (formatXYN m.sneReg x y ign) = decodeSkip strict ign (.sneReg x y ign) := by
  rw [decode_of_op h (by simp [opNumbers]), decodeOp]
  exact dispatch_of_mem h.opsNodup (by simp)

theorem decode_alu (x y n : Nibble) : decode m strict (formatXYN m.alu x y n) = decodeAlu m x y n := by
  rw [decode_of_op h (by simp [opNumbers]), decodeOp]
  exact dispatch_of_mem h.opsNodup (by simp)

theorem decode_key (x : Nibble) (nn : Byte) : decode m strict (formatXNN m.key x nn) = decodeKey m x nn := by
  rw [decode_of_op h (by simp [opNumbers]), decodeOp]
  exact dispatch_of_mem h.opsNodup (by simp)

theorem decode_misc (x : Nibble) (nn : Byte) : decode m strict (formatXNN m.misc x nn) = decodeMisc m x nn := by
  rw [decode_of_op h (by simp [opNumbers]), decodeOp]
  exact dispatch_of_mem h.opsNodup (by simp)

theorem keyNodup : [m.skp, m.sknp].Nodup := by simpa using h.keyNe

/-- Under an accepted map the word of a well-formed instruction decodes to it: `op` selects its row of R96, or its
group, and `n` or `nn` its row in the group. -/
theorem decode_encode {i : Instr} (hw : i.wf strict = true) : decode m strict (encode m i) = .instr i := by
  cases i with
  | cls => exact if_pos rfl
  | ret => exact (if_neg h.retNeCls).trans (if_pos rfl)
  | jp | call | seImm | sneImm | ldImm | addImm | ldI | jpV0 | rnd | drw =>
    rw [decode_of_op h (by simp [encode, opNumbers]), decodeOp]
    exact dispatch_of_mem h.opsNodup (by simp [encode])
  | seReg x y ign => exact (h.decode_seReg strict x y ign).trans (decodeSkip_eq_instr.mpr ⟨hw, rfl⟩)
  | sneReg x y ign => exact (h.decode_sneReg strict x y ign).trans (decodeSkip_eq_instr.mpr ⟨hw, rfl⟩)
  | ldReg | or | and | xor | addReg | sub | shr | subn | shl =>
    rw [encode, h.decode_alu]
    exact dispatch_of_mem h.aluNodup (by simp)
  | skp | sknp =>
    rw [encode, h.decode_key]
    exact dispatch_of_mem h.keyNodup (by simp)
  | ldVxDt | ldVxK | ldDtVx | ldStVx | addI | ldF | ldB | storeRegs | loadRegs =>
    rw [encode, h.decode_misc]
    exact dispatch_of_mem h.miscNodup (by simp)

end AcceptedMap

/-- Settles O5: the word's fields select the instruction's own row at each dispatch. -/
theorem decodingAnEncodedInstructionGivesItBack : Obligations.DecodingAnEncodedInstructionGivesItBack :=
  fun _ strict _ hm hw => (acceptedMap hm).decode_encode strict hw

/-- Settles O6: every row of every dispatch answers an instruction built from the word's own fields. -/
theorem encodingADecodedWordGivesItBack : Obligations.EncodingADecodedWordGivesItBack :=
  fun _ _ _ _ h => encode_of_decode h

/-! ### The rows of R96 -/

/-- The instructions `w` can stand for, their operands read from its fields, in the order of R96's rows. -/
def rowInstrs (w : Word) : List Instr :=
  let x := fieldX w
  let y := fieldY w
  let n := fieldN w
  let nn := fieldNN w
  let nnn := fieldNNN w
  [.cls, .ret, .jp nnn, .call nnn, .seImm x nn, .sneImm x nn, .seReg x y n, .ldImm x nn, .addImm x nn,
    .ldReg x y, .or x y, .and x y, .xor x y, .addReg x y, .sub x y, .shr x y, .subn x y, .shl x y, .sneReg x y n,
    .ldI nnn, .jpV0 nnn, .rnd x nn, .drw x y n, .skp x, .sknp x, .ldVxDt x, .ldVxK x, .ldDtVx x, .ldStVx x, .addI x,
    .ldF x, .ldB x, .storeRegs x, .loadRegs x]

theorem map_rowOf_rowInstrs (m : OpcodeMap) (strict : Bool) (w : Word) :
    (rowInstrs w).map (rowOf m strict) = opcodeRows m strict := rfl

theorem rowNumber_sub_one_lt (i : Instr) : rowNumber i - 1 < 34 := by
  cases i <;> simp [rowNumber]

theorem rowOf_mem (m : OpcodeMap) (strict : Bool) (i : Instr) : rowOf m strict i ∈ opcodeRows m strict := by
  have hlt : rowNumber i - 1 < (opcodeRows m strict).length := rowNumber_sub_one_lt i
  rw [rowOf, List.getD_eq_getElem _ _ hlt]
  exact List.getElem_mem hlt

/-- The word of a well-formed instruction selects the instruction's row. -/
theorem selects_encode {m : OpcodeMap} {strict : Bool} {i : Instr} (hw : i.wf strict = true) :
    selects (encode m i) (rowOf m strict i) = true := by
  open Laws.EncodedRow in
  cases i with
  | cls | ret => exact exactRow
  | jp | call | ldI | jpV0 => exact nnnRow
  | seImm | sneImm | ldImm | addImm | rnd => exact xnnRow
  | seReg | sneReg => exact skipRow hw
  | drw => exact xynRow
  | ldReg | or | and | xor | addReg | sub | shr | subn | shl => exact nRow
  | skp | sknp | ldVxDt | ldVxK | ldDtVx | ldStVx | addI | ldF | ldB | storeRegs | loadRegs => exact nnRow

/-- A word that selects the row of one of its instructions is that instruction's word. -/
theorem encodesBack_of_selects {m : OpcodeMap} {strict : Bool} {w : Word} {i : Instr} (hi : i ∈ rowInstrs w)
    (hs : selects w (rowOf m strict i) = true) : (Decoded.instr i).EncodesBack m strict w := by
  cases i with
  | cls | ret => exact ⟨(selects_rowExact.mp hs).symm, rfl⟩
  | jp nnn | call nnn | ldI nnn | jpV0 nnn =>
    obtain rfl : nnn = fieldNNN w := by simpa [rowInstrs] using hi
    exact encodesBack_nnn rfl rfl (selects_rowOp.mp hs)
  | seImm x nn | sneImm x nn | ldImm x nn | addImm x nn | rnd x nn =>
    obtain ⟨rfl, rfl⟩ : x = fieldX w ∧ nn = fieldNN w := by simpa [rowInstrs] using hi
    exact encodesBack_xnn rfl rfl (selects_rowOp.mp hs)
  | seReg x y ign | sneReg x y ign =>
    obtain ⟨rfl, rfl, rfl⟩ : x = fieldX w ∧ y = fieldY w ∧ ign = fieldN w := by simpa [rowInstrs] using hi
    obtain ⟨ho, hign⟩ := selects_rowSkip.mp hs
    exact encodesBack_xyn rfl hign ho
  | drw x y n =>
    obtain ⟨rfl, rfl, rfl⟩ : x = fieldX w ∧ y = fieldY w ∧ n = fieldN w := by simpa [rowInstrs] using hi
    exact encodesBack_xyn rfl rfl (selects_rowOp.mp hs)
  | ldReg x y | or x y | and x y | xor x y | addReg x y | sub x y | shr x y | subn x y | shl x y =>
    obtain ⟨rfl, rfl⟩ : x = fieldX w ∧ y = fieldY w := by simpa [rowInstrs] using hi
    obtain ⟨ho, hn⟩ := selects_rowN.mp hs
    exact encodesBack_xy rfl rfl ho hn
  | skp x | sknp x | ldVxDt x | ldVxK x | ldDtVx x | ldStVx x | addI x | ldF x | ldB x | storeRegs x | loadRegs x =>
    obtain rfl : x = fieldX w := by simpa [rowInstrs] using hi
    obtain ⟨ho, hnn⟩ := selects_rowNN.mp hs
    exact encodesBack_x rfl rfl ho hnn

theorem selects_rowOf_of_decode {m : OpcodeMap} {strict : Bool} {w : Word} {i : Instr}
    (h : decode m strict w = .instr i) : selects w (rowOf m strict i) = true := by
  obtain ⟨rfl, hw⟩ := encode_of_decode h
  exact selects_encode hw

/-- Under an accepted map a selected row is answered (R94, R96). -/
theorem AcceptedMap.exists_decode_of_selects {m : OpcodeMap} (h : AcceptedMap m) {strict : Bool} {w : Word}
    {row : Word × Word} (hrow : row ∈ opcodeRows m strict) (hs : selects w row = true) :
    ∃ i, decode m strict w = .instr i ∧ rowOf m strict i = row := by
  rw [← map_rowOf_rowInstrs m strict w] at hrow
  obtain ⟨i, hi, rfl⟩ := List.mem_map.mp hrow
  obtain ⟨henc, hw⟩ := encodesBack_of_selects hi hs
  exact ⟨i, henc ▸ h.decode_encode strict hw, rfl⟩

/-- Settles O7: two selected rows are the row of the one instruction the decoder answers, and an answer selects a
row. -/
theorem decoderFollowsTheOpcodeMap : Obligations.DecoderFollowsTheOpcodeMap := by
  intro m strict w hm
  have h := acceptedMap hm
  refine ⟨fun i => selects_rowOf_of_decode, fun row => h.exists_decode_of_selects, ?_, fun hnone => ?_⟩
  · intro row hrow row' hrow' hs hs'
    obtain ⟨i, hi, rfl⟩ := h.exists_decode_of_selects hrow hs
    obtain ⟨j, hj, rfl⟩ := h.exists_decode_of_selects hrow' hs'
    rw [Decoded.instr.inj (hi.symm.trans hj)]
  · cases hd : decode m strict w with
    | invalidOpcode => rfl
    | instr i => exact absurd (selects_rowOf_of_decode hd) (by simp [hnone _ (rowOf_mem m strict i)])

/-- Settles O55: the rows are computed from numerals, the two strict masks by the same test of `strict`. -/
theorem theDefaultOpcodeMapIsTheTable : Obligations.TheDefaultOpcodeMapIsTheTable :=
  ⟨by decide, rfl, fun _ => rfl⟩

/-! ### The illegal words (R95, R98, R99) -/

/-- Where no number is used twice, a dispatch is illegal exactly when no row has the key's number or its row is
illegal. -/
theorem dispatch_eq_invalidOpcode_iff {α : Type} [DecidableEq α] {key : α} {rows : List (α × Decoded)}
    (hn : (rows.map Prod.fst).Nodup) :
    dispatch key rows = .invalidOpcode ↔ key ∉ rows.map Prod.fst ∨ (key, .invalidOpcode) ∈ rows := by
  refine ⟨fun h => or_iff_not_imp_left.mpr fun hk => ?_, fun h => h.elim dispatch_of_not_mem (dispatch_of_mem hn)⟩
  obtain ⟨⟨_, d⟩, hmem, rfl⟩ := List.mem_map.mp (not_not.mp hk)
  rwa [← h, dispatch_of_mem hn hmem]

theorem decodeSkip_eq_invalidOpcode_iff {strict : Bool} {n : Nibble} {i : Instr} :
    decodeSkip strict n i = .invalidOpcode ↔ strict = true ∧ n ≠ 0 := by
  simp [decodeSkip_eq_ite]

/-- A word is illegal exactly when it is no exact word and its dispatch is illegal. -/
theorem decode_eq_invalidOpcode_iff {m : OpcodeMap} {strict : Bool} {w : Word} :
    decode m strict w = .invalidOpcode ↔ w ≠ m.cls ∧ w ≠ m.ret ∧ decodeOp m strict w = .invalidOpcode := by
  rw [decode]
  split
  · simp [*]
  split <;> simp [*]

namespace AcceptedMap
variable {m : OpcodeMap} (h : AcceptedMap m)
include h

theorem decodeAlu_eq_invalidOpcode_iff {x y n : Nibble} : decodeAlu m x y n = .invalidOpcode ↔ n ∉ aluNumbers m :=
  Iff.trans (dispatch_eq_invalidOpcode_iff h.aluNodup) (or_iff_left (by simp))

theorem decodeKey_eq_invalidOpcode_iff {x : Nibble} {nn : Byte} :
    decodeKey m x nn = .invalidOpcode ↔ nn ∉ [m.skp, m.sknp] :=
  Iff.trans (dispatch_eq_invalidOpcode_iff h.keyNodup) (or_iff_left (by simp))

theorem decodeMisc_eq_invalidOpcode_iff {x : Nibble} {nn : Byte} :
    decodeMisc m x nn = .invalidOpcode ↔ nn ∉ miscNumbers m :=
  Iff.trans (dispatch_eq_invalidOpcode_iff h.miscNodup) (or_iff_left (by simp))

theorem decodeOp_eq_invalidOpcode_iff {strict : Bool} {w : Word} :
    decodeOp m strict w = .invalidOpcode ↔
      fieldOp w ∉ opNumbers m ∨
      (fieldOp w = m.alu ∧ fieldN w ∉ aluNumbers m) ∨
      (fieldOp w = m.key ∧ fieldNN w ∉ [m.skp, m.sknp]) ∨
      (fieldOp w = m.misc ∧ fieldNN w ∉ miscNumbers m) ∨
      (strict = true ∧ (fieldOp w = m.seReg ∨ fieldOp w = m.sneReg) ∧ fieldN w ≠ 0) := by
  refine Iff.trans (dispatch_eq_invalidOpcode_iff h.opsNodup) (or_congr_right ?_)
  rw [← h.decodeAlu_eq_invalidOpcode_iff (x := fieldX w) (y := fieldY w),
    ← h.decodeKey_eq_invalidOpcode_iff (x := fieldX w), ← h.decodeMisc_eq_invalidOpcode_iff (x := fieldX w)]
  simp only [List.mem_cons, List.not_mem_nil, Prod.mk.injEq, reduceCtorEq, and_false, false_or, or_false,
    eq_comm (a := Decoded.invalidOpcode), decodeSkip_eq_invalidOpcode_iff]
  tauto

end AcceptedMap

theorem eq_formatNNN_iff {w : Word} {op : Nibble} {nnn : Imm12} :
    w = formatNNN op nnn ↔ fieldOp w = op ∧ fieldNNN w = nnn := by
  refine ⟨fun h => by simp [h], ?_⟩
  rintro ⟨rfl, rfl⟩
  exact (formatNNN_fields w).symm

/-- Settles O8: an unused number is illegal at each dispatch; under the default map `op` leaves 0 unused, and both exact
words have that `op`. -/
theorem illegalWordsAreExactlyTheListedOnes : Obligations.IllegalWordsAreExactlyTheListedOnes := by
  intro strict w
  have hop : ∀ op : Nibble, op ∉ opNumbers defaultOpcodeMap ↔ op = 0 := by decide
  have halu : ∀ n : Nibble, n ∉ aluNumbers defaultOpcodeMap ↔ n ∈ [0x8, 0x9, 0xA, 0xB, 0xC, 0xD, 0xF] := by decide
  have hcls : defaultOpcodeMap.cls = formatNNN 0 0x0E0 := rfl
  have hret : defaultOpcodeMap.ret = formatNNN 0 0x0EE := rfl
  rw [decode_eq_invalidOpcode_iff, acceptedMap_default.decodeOp_eq_invalidOpcode_iff, hcls, hret, ne_eq, ne_eq,
    eq_formatNNN_iff, eq_formatNNN_iff, hop, halu]
  by_cases h0 : fieldOp w = 0
  · simp [h0, defaultOpcodeMap]
  · simp only [h0, false_and, false_or, not_false_eq_true, true_and]
    exact Iff.rfl

/-! ### A few words -/

/-- A word is an instruction's under the default map when the encoder says so and both settings accept it. -/
theorem standsFor_encode {i : Instr} (hw : ∀ strict, i.wf strict = true) : StandsFor (encode defaultOpcodeMap i) i :=
  ⟨rfl, fun strict => acceptedMap_default.decode_encode strict (hw strict)⟩

/-- Settles O9: the words are the encoder's; `op = 0` has no instruction but the two exact words. -/
theorem listedWordsDecodeAsListed : Obligations.ListedWordsDecodeAsListed :=
  ⟨standsFor_encode fun _ => rfl, standsFor_encode fun _ => rfl, standsFor_encode fun _ => rfl,
    standsFor_encode fun _ => rfl, standsFor_encode fun _ => rfl, standsFor_encode fun _ => rfl,
    standsFor_encode fun _ => rfl, standsFor_encode fun _ => rfl, standsFor_encode fun _ => rfl, by decide⟩

end Sys2Proof
end

section
/-! PROOFS. The compare skips and the shifts (O23, O31, O32): the word by the decoder's laws, the effect by those of the
shared operation. -/

namespace Sys2Proof.Machine

/-! ### The compare skips (R126 to R129) -/

theorem skip_beq (s : State) (a b : Byte) : s.skip (a == b) = { s with pc := if a = b then s.pc + 2 else s.pc } := by
  simp only [State.skip_eq, beq_iff_eq]

theorem skip_bne (s : State) (a b : Byte) : s.skip (a != b) = { s with pc := if a = b then s.pc else s.pc + 2 } := by
  simp only [State.skip_eq, bne_iff_ne, ite_not]

/-- Settles O23: each skip is `State.skip` on its comparison; the register forms decode as far as the low nibble is
legal. -/
theorem compareSkipsSkipOnTheirCondition : Obligations.CompareSkipsSkipOnTheirCondition := by
  intro x y ign nn s
  refine ⟨standsFor_encode fun _ => rfl, standsFor_encode fun _ => rfl, rfl, fun strict => ?_, rfl, fun strict => ?_,
    congrArg _ (skip_beq s _ _), congrArg _ (skip_bne s _ _), congrArg _ (skip_beq s _ _),
    congrArg _ (skip_bne s _ _)⟩
  · exact (acceptedMap_default.decode_seReg strict x y ign).trans (decodeSkip_eq_ite strict ign _)
  · exact (acceptedMap_default.decode_sneReg strict x y ign).trans (decodeSkip_eq_ite strict ign _)

/-! ### The shifts (R160, R162) -/

/-- The write order of R152 in the words of the claims. -/
theorem writesRegThenFlag_writeWithFlag (s : State) (x : Nibble) {v r : Byte} {g : Bool} {flag : Prop} (hv : v = r)
    (hg : g = true ↔ flag) : WritesRegThenFlag s (s.writeWithFlag x v g) x r flag := by
  have hreg (y : Nibble) : (s.writeWithFlag x v g).reg y = if y = 15 then flagByte g else if y = x then v else s.reg y :=
    s.reg_writeWithFlag x y v g
  refine ⟨rfl, fun hf => ?_, fun hf => ?_, fun hx => ?_, fun y hy hF => ?_⟩
  · rw [hreg, if_pos rfl, hg.mpr hf, flagByte, if_pos rfl]
  · rw [hreg, if_pos rfl, Bool.eq_false_iff.mpr (mt hg.mp hf), flagByte, if_neg Bool.false_ne_true]
  · rw [hreg, if_neg hx, if_pos rfl, hv]
  · rw [hreg, if_neg hF, if_neg hy]

theorem ushiftRight_one_eq (v : Byte) : v >>> 1 = BitVec.ofNat 8 (v.toNat / 2) := by
  refine BitVec.eq_of_toNat_eq ?_
  rw [BitVec.toNat_ushiftRight, Nat.shiftRight_one, BitVec.toNat_ofNat, Nat.mod_eq_of_lt (by omega)]

theorem shiftLeft_one_eq (v : Byte) : v <<< 1 = BitVec.ofNat 8 (v.toNat * 2 % 256) := by
  refine BitVec.eq_of_toNat_eq ?_
  rw [BitVec.toNat_shiftLeft, Nat.shiftLeft_eq, BitVec.toNat_ofNat, Nat.pow_one, Nat.mod_mod]

theorem shiftedOutRight_iff (v : Byte) : shiftedOutRight v = true ↔ v.toNat % 2 = 1 := by
  rw [shiftedOutRight, BitVec.getLsbD, Nat.testBit_zero, decide_eq_true_eq]

theorem shiftedOutLeft_iff (v : Byte) : shiftedOutLeft v = true ↔ 128 ≤ v.toNat := by
  have hmsb : shiftedOutLeft v = v.msb := BitVec.msb_eq_getLsbD_last v |>.symm
  rw [hmsb, BitVec.msb_eq_decide, decide_eq_true_eq]

/-- Settles O31: the shift halves and moves bit 0 out. -/
theorem shiftRightMovesBitZeroOut : Obligations.ShiftRightMovesBitZeroOut := fun x _ s =>
  ⟨standsFor_encode fun _ => rfl, _, rfl,
    writesRegThenFlag_writeWithFlag s x (ushiftRight_one_eq _) (shiftedOutRight_iff _)⟩

/-- Settles O32: the shift doubles and moves bit 7 out. -/
theorem shiftLeftMovesBitSevenOut : Obligations.ShiftLeftMovesBitSevenOut := fun x _ s =>
  ⟨standsFor_encode fun _ => rfl, _, rfl,
    writesRegThenFlag_writeWithFlag s x (shiftLeft_one_eq _) (shiftedOutLeft_iff _)⟩

end Sys2Proof.Machine
end

section
/-! PROOFS. The cycle (O10, O12, O13, O18, O54, O56): what a `Step` of a running engine is once its fetch and its decode
are known, and a placed word as the next one fetched. -/

namespace Sys2Proof.Machine

/-! ### One event, one word (R120) -/

theorem step_of_pending_cons {s : State} {e : Event} {rest : List Event} (hp : s.pending = e :: rest) :
    step s = applyEvent e { s with pending := rest } := by
  simp only [step, nextEvent, hp]

theorem step_of_pending_nil {s : State} (hh : s.halted = false) (hp : s.pending = []) :
    step s = stepEvent (freeInputs s.draws) { s with draws := s.draws + 1 } := by
  simp only [step, nextEvent, hp, hh, Bool.false_eq_true, if_false]

/-- A running engine that fetches `w` runs it with the inputs sampled and `pc` advanced. -/
theorem stepEvent_of_fetch_some {s : State} {w : Word} (hh : s.halted = false) (hf : s.fetch = some w)
    (inputs : StepInputs) :
    stepEvent inputs s = runWord s.pc w { s with inputs := inputs, pc := s.pc + 2 } := by
  simp only [stepEvent, hh, hf, Bool.false_eq_true, if_false]

theorem runWord_of_instr {s : State} {w : Word} {i : Instr}
    (hd : decode s.cfg.opcodeMap s.cfg.strictLowNibble w = .instr i) (a : Word) : runWord a w s = exec i s := by
  simp only [runWord, hd]

theorem runWord_of_invalidOpcode {s : State} {w : Word}
    (hd : decode s.cfg.opcodeMap s.cfg.strictLowNibble w = .invalidOpcode) (a : Word) :
    runWord a w s = .next (s.raise .invalidOpcode a (some w)) := by
  simp only [runWord, hd]

/-- A running engine whose fetched word decodes to `i` executes `i`. -/
theorem stepEvent_of_decode {s : State} {w : Word} {i : Instr} (hh : s.halted = false) (hf : s.fetch = some w)
    (hd : decode s.cfg.opcodeMap s.cfg.strictLowNibble w = .instr i) (inputs : StepInputs) :
    stepEvent inputs s = exec i { s with inputs := inputs, pc := s.pc + 2 } := by
  rw [stepEvent_of_fetch_some hh hf]
  exact runWord_of_instr (s := { s with inputs := inputs, pc := s.pc + 2 }) hd s.pc

/-- A running engine whose fetched word is illegal takes an `InvalidOpcode` (R241). -/
theorem stepEvent_of_invalidOpcode {s : State} {w : Word} (hh : s.halted = false) (hf : s.fetch = some w)
    (hd : decode s.cfg.opcodeMap s.cfg.strictLowNibble w = .invalidOpcode) (inputs : StepInputs) :
    stepEvent inputs s =
      .next (State.raise { s with inputs := inputs, pc := s.pc + 2 } .invalidOpcode s.pc (some w)) := by
  rw [stepEvent_of_fetch_some hh hf]
  exact runWord_of_invalidOpcode (s := { s with inputs := inputs, pc := s.pc + 2 }) hd s.pc

/-- Settles O10: neither dequeuing the event nor drawing free inputs touches what the fetch and the decoder read. -/
theorem aStepExecutesTheDecodedInstruction : Obligations.AStepExecutesTheDecodedInstruction := by
  intro s i hh hle hd
  refine ⟨fun inputs rest hp => ?_, fun hp => ?_⟩
  · rw [step_of_pending_cons hp]
    exact stepEvent_of_decode (s := { s with pending := rest }) hh (State.fetch_of_le hle) hd inputs
  · rw [step_of_pending_nil hh hp]
    exact stepEvent_of_decode (s := { s with draws := s.draws + 1 }) hh (State.fetch_of_le hle) hd _

/-- Settles O12: the record and the frame are those of `State.raise`. -/
theorem anIllegalWordHalts : Obligations.AnIllegalWordHalts :=
  fun _ _ inputs hh hf hd => ⟨_, stepEvent_of_invalidOpcode hh hf hd inputs, rfl⟩

/-- Settles O13: each event but `Reset` asks first whether the engine is halted. -/
theorem aHaltedEngineDoesNothing : Obligations.AHaltedEngineDoesNothing := by
  intro s hh
  refine ⟨fun inputs => if_pos hh, if_pos hh, if_pos hh, fun hp => ?_⟩
  simp only [step, nextEvent, hp, hh, if_true]

/-! ### A finished program (R285) -/

theorem State.finished_iff (s : State) : s.finished = true ↔
    s.halted = false ∧
    (∃ w, s.fetch = some w ∧
      decode s.cfg.opcodeMap s.cfg.strictLowNibble w = .instr (.jp (s.pc.setWidth 12))) ∧
    s.pc = imm12 (s.pc.setWidth 12) := by
  simp only [finished, Bool.and_eq_true, Bool.not_eq_true', beq_iff_eq, Option.map_eq_some_iff, and_assoc, imm12]

/-- Settles O54: the word at `pc` is executed, and it jumps back to `pc`. -/
theorem aFinishedProgramStaysFinished : Obligations.AFinishedProgramStaysFinished := by
  intro s inputs h
  obtain ⟨hh, ⟨w, hf, hd⟩, hpc⟩ := s.finished_iff.mp h
  calc applyEvent (.step inputs) s
    _ = exec (.jp (s.pc.setWidth 12)) { s with inputs := inputs, pc := s.pc + 2 } := stepEvent_of_decode hh hf hd inputs
    _ = .next { s with inputs := inputs, pc := imm12 (s.pc.setWidth 12) } := rfl
    _ = .next { s with inputs := inputs } := by rw [← hpc]

/-! ### The fault record (R245, R247) -/

/-- An instruction that halts the engine records its own address and its own word. -/
theorem Effect.fault_of_halted {s t : State} {i : Instr} (e : Effect s i t) (hs : s.halted = false)
    (ht : t.halted = true) : ∃ cause, t.fault = some ⟨cause, s.pc - 2, some (encode s.cfg.opcodeMap i)⟩ := by
  cases e with
  | raised | storeCutShort | loadCutShort => exact ⟨_, rfl⟩
  | skipped => exact absurd (hs.symm.trans ((s.skip_halted _).symm.trans ht)) Bool.false_ne_true
  | _ => exact absurd (hs.symm.trans ht) Bool.false_ne_true

/-- Settles O56: the fetch fails, or its word is illegal, or it decodes to an instruction whose word it is. -/
theorem theRecordNamesTheFetchedWord : Obligations.TheRecordNamesTheFetchedWord := by
  intro s t inputs hh _ ht hth
  change stepEvent inputs s = .next t at ht
  cases hf : s.fetch with
  | none =>
    rw [stepEvent_of_fetch_none hh hf] at ht
    cases ht
    exact ⟨.memoryFault, rfl⟩
  | some w =>
    cases hd : decode s.cfg.opcodeMap s.cfg.strictLowNibble w with
    | invalidOpcode =>
      rw [stepEvent_of_invalidOpcode hh hf hd] at ht
      cases ht
      exact ⟨.invalidOpcode, rfl⟩
    | instr i =>
      rw [stepEvent_of_decode hh hf hd] at ht
      obtain ⟨cause, hrecord⟩ := (effect_of_exec ht).fault_of_halted hh hth
      obtain ⟨hword, -⟩ := encode_of_decode hd
      exact ⟨cause, by rw [hrecord, BitVec.add_sub_cancel, hword]⟩

/-! ### A placed word (log entry 17) -/

/-- The two bytes of a word in fetch order make it again (R62). -/
theorem wordOfBytes_bytesOfWord (bigEndian : Bool) (w : Word) :
    wordOfBytes bigEndian (byte0OfWord bigEndian w) (byte1OfWord bigEndian w) = w := by
  have hhalves : w.extractLsb' 8 8 ++ w.extractLsb' 0 8 = w := by
    exact (BitVec.extractLsb'_append_extractLsb'_eq_extractLsb' (start₁ := 0) rfl).trans BitVec.extractLsb'_eq_self
  cases bigEndian <;> exact hhalves

/-- A placed word is fetched from where it was placed. -/
theorem State.fetch_placeWord {s : State} (hw : Memory.wf (background s.cfg) s.mem) (w : Word) :
    (s.placeWord w).fetch = some w := by
  have hpc : (s.placeWord w).pc.toNat ≤ 4094 := by
    change (if s.pc.toNat > 4094 then resetPc else s.pc).toNat ≤ 4094
    split
    · decide
    · next h => exact Nat.le_of_not_lt h
  have hw0 := State.setByte_wf hw (a := (s.placeWord w).pc.toNat) (by rw [memSize]; omega)
    (byte0OfWord s.cfg.fetchBigEndian w)
  have hlow : (s.placeWord w).byteAt (s.placeWord w).pc.toNat = byte0OfWord s.cfg.fetchBigEndian w :=
    (State.byteAt_setByte_of_ne _ _ (Nat.ne_of_lt (Nat.lt_succ_self _))).trans (State.byteAt_setByte_self hw _ _)
  have hhigh : (s.placeWord w).byteAt ((s.placeWord w).pc.toNat + 1) = byte1OfWord s.cfg.fetchBigEndian w :=
    State.byteAt_setByte_self hw0 _ _
  have hcfg : (s.placeWord w).cfg = s.cfg := rfl
  rw [State.fetch_of_le hpc, hlow, hhigh, hcfg, wordOfBytes_bytesOfWord]

theorem State.withFetchWord_toNat (s : State) (w : Word) : s.withFetchWord 16 w.toNat = s.placeWord w := by
  rw [withFetchWord, Nat.mod_eq_of_lt w.isLt, BitVec.ofNat_toNat, BitVec.setWidth_eq]

/-- Settles O18: the placed word is fetched; placing it writes memory, `pc`, the halt, its record and the schedule. -/
theorem aPlacedWordRunsNext : Obligations.APlacedWordRunsNext := by
  intro s w i hw hd
  rw [State.withFetchWord_toNat, step_of_pending_nil (s := s.placeWord w) rfl rfl]
  have hfetch := State.fetch_placeWord hw w
  exact ⟨_, stepEvent_of_decode (s := { s.placeWord w with draws := s.draws + 1 }) rfl hfetch hd _,
    rfl, rfl, rfl, rfl, rfl, rfl⟩

end Sys2Proof.Machine
end

section
/-! PROOFS. Which instructions read the inputs of the step (O53). -/

namespace Sys2Proof.Machine

/-- `s` with the inputs of the step replaced. -/
def State.withInputs (s : State) (p : StepInputs) : State := { s with inputs := p }

theorem State.storeBlock_withInputs (s : State) (p : StepInputs) (x : Nibble) :
    (s.withInputs p).storeBlock x = (s.storeBlock x).withInputs p := by
  have h := State.blockStore_mem_congr (s := s) (u := s.withInputs p) rfl rfl rfl s.base (x.toNat + 1) 0
  exact congrArg (fun m => { s.withInputs p with mem := m }) h

theorem State.loadBlock_withInputs (s : State) (p : StepInputs) (x : Nibble) :
    (s.withInputs p).loadBlock x = (s.loadBlock x).withInputs p := by
  have h := State.blockLoad_V_congr (s := s) (u := s.withInputs p) rfl rfl rfl s.base (x.toNat + 1) 0
  exact congrArg (fun V => { s.withInputs p with V := V }) h

/-- A branch on a condition that does not read the inputs. -/
theorem ite_withInputs {c : Prop} [Decidable c] {t u t' u' : State} {p : StepInputs} (ht : t' = t.withInputs p)
    (hu : u' = u.withInputs p) : (if c then t' else u') = (if c then t else u).withInputs p := by
  rw [ht, hu, apply_ite (State.withInputs · p)]

/-- Replacing the inputs before an instruction that does not read them replaces them in the state it leaves. -/
theorem exec_withInputs {i : Instr} (hi : readsInputs i = false) (s : State) (p : StepInputs) :
    ∃ t, exec i s = .next t ∧ exec i (s.withInputs p) = .next (t.withInputs p) := by
  cases i with
  | rnd | skp | sknp | ldVxK => cases hi
  | ret =>
    cases h : s.stack with
    | nil => exact ⟨_, exec_ret_of_nil h, exec_ret_of_nil (s := s.withInputs p) h⟩
    | cons => exact ⟨_, exec_ret_of_cons h, exec_ret_of_cons (s := s.withInputs p) h⟩
  | seImm | sneImm | seReg | sneReg | call | ldB | drw =>
    exact ⟨_, rfl, congrArg Host.Outcome.next (ite_withInputs rfl rfl)⟩
  | addI x =>
    have hflag := apply_ite (State.withInputs · p) (indexOverflow s.I (s.reg x) = true) (s.setVF true) s
    exact ⟨_, rfl, congrArg (fun t : State => Host.Outcome.next (t.setI _)) hflag.symm⟩
  | storeRegs x =>
    refine ⟨_, exec_storeRegs x s, (exec_storeRegs x (s.withInputs p)).trans (congrArg _ ?_)⟩
    rw [State.storeBlock_withInputs]
    exact ite_withInputs rfl rfl
  | loadRegs x =>
    refine ⟨_, exec_loadRegs x s, (exec_loadRegs x (s.withInputs p)).trans (congrArg _ ?_)⟩
    rw [State.loadBlock_withInputs]
    exact ite_withInputs rfl rfl
  | _ => exact ⟨_, rfl, rfl⟩

/-- Settles O53: `exec` is a function, so `exec_withInputs` speaks of both runs. -/
theorem onlyFourInstructionsReadTheInputs : Obligations.OnlyFourInstructionsReadTheInputs := by
  intro i s t u p hi ht hu
  obtain ⟨t', ht', hu'⟩ := exec_withInputs hi s p
  obtain rfl : t' = t := Host.Outcome.next.inj (ht'.symm.trans ht)
  exact Host.Outcome.next.inj (hu.symm.trans hu')

end Sys2Proof.Machine
end

section
/-! PROOFS. Jumps, calls and returns (O19 to O22, O24) and the key skips (O44). -/

namespace Sys2Proof.Machine

/-! ### Widened operands (R93) -/

theorem toNat_imm12 (nnn : Imm12) : (imm12 nnn).toNat = nnn.toNat :=
  BitVec.toNat_setWidth_of_le (by decide)

theorem toNat_zext16 (v : Byte) : (zext16 v).toNat = v.toNat :=
  BitVec.toNat_setWidth_of_le (by decide)

/-! ### CALL and RET (R123, R125) -/

theorem exec_call_of_le {s : State} (h : s.cfg.stackDepth ≤ s.sp) (nnn : Imm12) :
    exec (.call nnn) s = .next (s.raiseIn (.call nnn) .stackOverflow) :=
  congrArg _ (if_pos h)

theorem exec_call_of_lt {s : State} (h : s.sp < s.cfg.stackDepth) (nnn : Imm12) :
    exec (.call nnn) s = .next ((s.setStack (s.pc :: s.stack)).setPc (imm12 nnn)) :=
  congrArg _ (if_neg (Nat.not_le.mpr h))

/-- A completed CALL leaves its return address as the most recent frame. -/
theorem stack_of_exec_call {s t : State} {nnn : Imm12} (h : s.sp < s.cfg.stackDepth)
    (ht : exec (.call nnn) s = .next t) : t.stack = s.pc :: s.stack := by
  rw [exec_call_of_lt h] at ht
  cases ht
  rfl

/-- The frame pushed on the stack is frame `sp`, counted from the oldest (R33). -/
theorem frame_sp_of_stack_cons {s t : State} {f : Word} (h : t.stack = f :: s.stack) : t.frame s.sp = some f := by
  rw [State.frame, State.sp, h, List.reverse_cons, ← List.length_reverse, List.getElem?_concat_length]

/-- Settles O22: the most recent frame is the one the call pushed. -/
theorem returnGoesBackBehindTheCall : Obligations.ReturnGoesBackBehindTheCall := by
  intro nnn s t u hlt ht hu
  exact ⟨_, exec_ret_of_cons (hu.trans (stack_of_exec_call hlt ht)), rfl, rfl⟩

/-- Settles O19: RET by the shape of the stack, and O22 for the state right after the call. -/
theorem retPopsOrUnderflows : Obligations.RetPopsOrUnderflows :=
  ⟨standsFor_encode fun _ => rfl, fun _ =>
    ⟨fun _ _ h => exec_ret_of_cons h, fun h => ⟨_, exec_ret_of_nil (List.length_eq_zero_iff.mp h), rfl⟩,
      fun nnn t hlt ht => returnGoesBackBehindTheCall nnn _ t t hlt ht rfl⟩⟩

/-- Settles O21: CALL by whether a frame is free. -/
theorem callPushesOrOverflows : Obligations.CallPushesOrOverflows := fun nnn _ =>
  ⟨standsFor_encode fun _ => rfl,
    fun hlt => ⟨_, exec_call_of_lt hlt nnn, rfl, rfl, frame_sp_of_stack_cons rfl, toNat_imm12 nnn⟩,
    fun heq => ⟨_, exec_call_of_le heq.ge nnn, rfl⟩⟩

/-! ### The jumps (R124, R131) -/

/-- Settles O20: the target is the zero-extended immediate. -/
theorem jpSetsPc : Obligations.JpSetsPc := fun nnn _ =>
  ⟨standsFor_encode fun _ => rfl, _, rfl, rfl, toNat_imm12 nnn⟩

/-- A 12-bit and an 8-bit value add up without wrap in 16 bits (D18). -/
theorem toNat_imm12_add_zext16 (nnn : Imm12) (v : Byte) : (imm12 nnn + zext16 v).toNat = nnn.toNat + v.toNat := by
  have hnnn := nnn.isLt
  have hv := v.isLt
  rw [BitVec.toNat_add, toNat_imm12, toNat_zext16, Nat.mod_eq_of_lt (by omega)]

/-- Settles O24: the sum does not leave 16 bits. -/
theorem jpV0AddsRegisterZero : Obligations.JpV0AddsRegisterZero := fun nnn s =>
  ⟨standsFor_encode fun _ => rfl, _, rfl, rfl, toNat_imm12_add_zext16 nnn (s.reg 0)⟩

/-! ### The key skips (R220, R221) -/

theorem keyIsHeld_eq (s : State) (x : Nibble) :
    s.keyIsHeld x = s.inputs.keyHeld.getLsbD ((s.reg x).toNat % 16) := by
  rw [State.keyIsHeld, State.lowNibble, BitVec.toNat_setWidth]

/-- Skipping on a flag that is off. -/
theorem skip_not (s : State) (b : Bool) : s.skip (!b) = { s with pc := if b then s.pc else s.pc + 2 } := by
  cases b <;> rfl

/-- Settles O44: each skip is `State.skip` on the held bit or its negation. -/
theorem keySkipsReadTheHeldBit : Obligations.KeySkipsReadTheHeldBit := by
  intro x s
  rw [← keyIsHeld_eq]
  exact ⟨standsFor_encode fun _ => rfl, standsFor_encode fun _ => rfl, congrArg _ (s.skip_eq _),
    congrArg _ (skip_not s _)⟩

end Sys2Proof.Machine
end

section
/-! PROOFS. Immediate loads and sums, copy and logic, and the flag-setting sums and differences (O25 to O30): the word by
the decoder's laws, the effect by those of the shared register writes. -/

namespace Sys2Proof.Machine

/-! ### Register writes without a flag (R150, R151, R153 to R156) -/

/-- One register write in the words of the claims; VF is a register like any other. -/
theorem writesReg_setReg (s : State) (x : Nibble) {v r : Byte} (hv : v = r) : WritesReg s (s.setReg x v) x r :=
  ⟨rfl, (s.reg_setReg_self x v).trans hv, fun _ hy => s.reg_setReg_of_ne v hy⟩

theorem add_eq_ofNat (v w : Byte) : v + w = BitVec.ofNat 8 ((v.toNat + w.toNat) % 256) := by
  refine BitVec.eq_of_toNat_eq ?_
  rw [BitVec.toNat_add, BitVec.toNat_ofNat, Nat.mod_mod]

/-- Settles O25: LD is one register write. -/
theorem loadImmediateSetsTheRegister : Obligations.LoadImmediateSetsTheRegister := fun x _ s =>
  ⟨standsFor_encode fun _ => rfl, _, rfl, writesReg_setReg s x rfl⟩

/-- Settles O26: the 8-bit sum is one register write. -/
theorem addImmediateWrapsWithoutFlag : Obligations.AddImmediateWrapsWithoutFlag := fun x _ s =>
  ⟨standsFor_encode fun _ => rfl, _, rfl, writesReg_setReg s x (add_eq_ofNat _ _)⟩

/-- A register write of a value known bit by bit. -/
theorem writesReg_of_bits {i : Instr} {s : State} {x : Nibble} {v : Byte} {bit : Nat → Bool}
    (hexec : exec i s = .next (s.setReg x v)) (hbit : ∀ k, v.getLsbD k = bit k) :
    ∃ t, exec i s = .next t ∧ WritesReg s t x (t.reg x) ∧ ∀ k, k < 8 → (t.reg x).getLsbD k = bit k := by
  have hreg := s.reg_setReg_self x v
  exact ⟨_, hexec, writesReg_setReg s x hreg.symm, fun k _ => hreg.symm ▸ hbit k⟩

/-- Settles O27: all four are one register write, the logic ones of a bitwise operation. -/
theorem copyAndLogicWriteOnlyVx : Obligations.CopyAndLogicWriteOnlyVx := fun x _ s =>
  ⟨standsFor_encode fun _ => rfl, standsFor_encode fun _ => rfl, standsFor_encode fun _ => rfl,
    standsFor_encode fun _ => rfl, ⟨_, rfl, writesReg_setReg s x rfl⟩, writesReg_of_bits rfl fun _ => BitVec.getLsbD_or,
    writesReg_of_bits rfl fun _ => BitVec.getLsbD_and, writesReg_of_bits rfl fun _ => BitVec.getLsbD_xor⟩

/-! ### Sums and differences with a flag (R157, R158, R161) -/

theorem carryOut_iff (v w : Byte) : carryOut v w = true ↔ v.toNat + w.toNat > 255 :=
  decide_eq_true_iff

theorem sub_eq_ofNat (v w : Byte) : v - w = BitVec.ofNat 8 ((v.toNat + 256 - w.toNat) % 256) := by
  have hw := w.isLt
  refine BitVec.eq_of_toNat_eq ?_
  rw [BitVec.toNat_sub, BitVec.toNat_ofNat, Nat.mod_mod]
  omega

/-- Equal operands do not borrow (D23). -/
theorem notBorrow_iff (v w : Byte) : notBorrow v w = true ↔ w.toNat ≤ v.toNat := by
  rw [notBorrow, Bool.not_eq_true', decide_eq_false_iff_not, Nat.not_lt]

/-- Settles O28: the 8-bit sum, then its carry. -/
theorem addRegistersSetsCarry : Obligations.AddRegistersSetsCarry := fun x _ s =>
  ⟨standsFor_encode fun _ => rfl, _, rfl, writesRegThenFlag_writeWithFlag s x (add_eq_ofNat _ _) (carryOut_iff _ _)⟩

/-- Settles O29: the 8-bit difference, then NOT borrow. -/
theorem subtractSetsNotBorrow : Obligations.SubtractSetsNotBorrow := fun x _ s =>
  ⟨standsFor_encode fun _ => rfl, _, rfl, writesRegThenFlag_writeWithFlag s x (sub_eq_ofNat _ _) (notBorrow_iff _ _)⟩

/-- Settles O30: the same laws with the operands swapped. -/
theorem reverseSubtractSetsNotBorrow : Obligations.ReverseSubtractSetsNotBorrow := fun x _ s =>
  ⟨standsFor_encode fun _ => rfl, _, rfl, writesRegThenFlag_writeWithFlag s x (sub_eq_ofNat _ _) (notBorrow_iff _ _)⟩

end Sys2Proof.Machine
end

section
/-! PROOFS. The index register and the memory transfers (O34 to O39): what is written to `I`, the decimal digits, and the
two block transfers, complete or cut short. -/

namespace Sys2Proof.Machine

/-! ### The index register (R180 to R182) -/

/-- Settles O34: the index is the zero-extended immediate. -/
theorem loadIndexSetsTwelveBits : Obligations.LoadIndexSetsTwelveBits := fun nnn _ =>
  ⟨standsFor_encode fun _ => rfl, _, rfl, rfl, toNat_imm12 nnn⟩

/-- Leaving 16 bits is leaving 12 bits: one threshold decides the flag (R181). -/
theorem indexOverflow_iff (i : Word) (v : Byte) : indexOverflow i v = true ↔ i.toNat + v.toNat > 0x0FFF := by
  rw [indexOverflow, Bool.or_eq_true, decide_eq_true_iff, decide_eq_true_iff]
  omega

/-- The 12-bit mask of a 16-bit value is its residue modulo 4096. -/
theorem toNat_ofNat_and_0FFF (n : Nat) : (BitVec.ofNat 16 n &&& 0x0FFF).toNat = n % 4096 := by
  rw [BitVec.toNat_and, BitVec.toNat_ofNat]
  exact (Nat.and_two_pow_sub_one_eq_mod _ 12).trans (Nat.mod_mod_of_dvd n (by decide))

/-- VF is set where the index overflows and otherwise kept (D10). -/
theorem reg_regVF_ite_setVF (s : State) (g : Bool) :
    (if g then s.setVF true else s).reg regVF = if g then 1 else s.reg regVF := by
  cases g with
  | true => exact s.reg_setVF_self true
  | false => rfl

theorem reg_ite_setVF_of_ne (s : State) (g : Bool) {r : Nibble} (h : r ≠ regVF) :
    (if g then s.setVF true else s).reg r = s.reg r := by
  cases g with
  | true => exact s.reg_setVF_of_ne true h
  | false => rfl

theorem ite_setVF_eq (s : State) (g : Bool) :
    (if g then s.setVF true else s) = { s with V := (if g then s.setVF true else s).V } := by
  cases g <;> rfl

/-- Settles O35: the flag goes to VF where there is one, then the masked sum to `I`. -/
theorem addToIndexMasksAndFlags : Obligations.AddToIndexMasksAndFlags := by
  intro x s
  refine ⟨standsFor_encode fun _ => rfl, _, rfl, ?_, toNat_ofNat_and_0FFF _, ?_, fun r hr => ?_⟩
  · exact congrArg (State.setI · _) (ite_setVF_eq s (indexOverflow s.I (s.reg x)))
  · simp only [← indexOverflow_iff]
    exact reg_regVF_ite_setVF s _
  · exact reg_ite_setVF_of_ne s _ hr

/-- Accepted parameters keep the formula's value inside 16 bits (log entry 7). -/
theorem toNat_fontAddress {s : State} (h : validConfig s.cfg = true) (digit : Nibble) :
    (s.fontAddress digit).toNat = s.cfg.fontOffset + s.cfg.fontStride * digit.toNat := by
  simp only [validConfig, Bool.and_eq_true, decide_eq_true_eq] at h
  obtain ⟨⟨-, hstride⟩, -⟩ := h
  have hdigit : s.cfg.fontStride * digit.toNat ≤ s.cfg.fontStride * 15 :=
    Nat.mul_le_mul_left _ (Nat.le_of_lt_succ digit.isLt)
  rw [State.fontAddress, BitVec.toNat_ofNat, Nat.mod_eq_of_lt (by omega)]

theorem toNat_lowNibble (s : State) (x : Nibble) : (s.lowNibble x).toNat = (s.reg x).toNat % 16 := by
  rw [State.lowNibble, BitVec.toNat_setWidth]

/-- Settles O36: the digit of the formula is the low nibble of `V[x]`. -/
theorem fontAddressFollowsTheFormula : Obligations.FontAddressFollowsTheFormula := fun x s =>
  ⟨standsFor_encode fun _ => rfl, fun hc => ⟨_, rfl, rfl, toNat_lowNibble s x ▸ toNat_fontAddress hc _⟩⟩

/-! ### LD B, Vx (R183) -/

/-- The state LD B leaves where its range is inside memory. -/
def State.storeDigits (s : State) (x : Nibble) : State :=
  ((s.setByte s.base (decimalDigits (s.reg x)).1).setByte (s.base + 1) (decimalDigits (s.reg x)).2.1).setByte
    (s.base + 2) (decimalDigits (s.reg x)).2.2

theorem exec_ldB_of_le {s : State} (h : s.base + 2 ≤ 4095) (x : Nibble) :
    exec (.ldB x) s = .next (s.storeDigits x) :=
  congrArg _ (if_neg (Nat.not_lt.mpr h))

theorem exec_ldB_of_gt {s : State} (h : 4095 < s.base + 2) (x : Nibble) :
    exec (.ldB x) s = .next (s.raiseIn (.ldB x) .memoryFault) :=
  congrArg _ (if_pos h)

/-- Each digit fits a byte. -/
theorem toNat_decimalDigits (v : Byte) : (decimalDigits v).1.toNat = v.toNat / 100 ∧
    (decimalDigits v).2.1.toNat = v.toNat / 10 % 10 ∧ (decimalDigits v).2.2.toNat = v.toNat % 10 := by
  have hv := v.isLt
  simp only [decimalDigits, BitVec.toNat_ofNat]
  omega

/-- The three bytes read back what was stored: the addresses differ, and memory stays canonical between the writes. -/
theorem State.byteAt_storeDigits {s : State} (hw : Memory.wf (background s.cfg) s.mem) (h : s.base + 2 ≤ 4095)
    (x : Nibble) : (s.storeDigits x).byteAt s.base = (decimalDigits (s.reg x)).1 ∧
      (s.storeDigits x).byteAt (s.base + 1) = (decimalDigits (s.reg x)).2.1 ∧
      (s.storeDigits x).byteAt (s.base + 2) = (decimalDigits (s.reg x)).2.2 := by
  have hw0 := State.setByte_wf hw (a := s.base) (by rw [memSize]; omega) (decimalDigits (s.reg x)).1
  have hw1 := State.setByte_wf hw0 (a := s.base + 1) (by rw [memSize]; omega) (decimalDigits (s.reg x)).2.1
  refine ⟨?_, ?_, State.byteAt_setByte_self hw1 _ _⟩
  · rw [storeDigits, byteAt_setByte_of_ne _ _ (by omega), byteAt_setByte_of_ne _ _ (by omega), byteAt_setByte_self hw]
  · rw [storeDigits, byteAt_setByte_of_ne _ _ (by omega), byteAt_setByte_self hw0]

theorem State.byteAt_storeDigits_of_out (s : State) (x : Nibble) {a : Nat} (h : a < s.base ∨ s.base + 2 < a) :
    (s.storeDigits x).byteAt a = s.byteAt a := by
  rw [storeDigits, byteAt_setByte_of_ne _ _ (by omega), byteAt_setByte_of_ne _ _ (by omega),
    byteAt_setByte_of_ne _ _ (by omega)]

/-- Settles O37: the range test decides between the three stores and the fault. -/
theorem decimalConversionStoresThreeDigits : Obligations.DecimalConversionStoresThreeDigits := by
  refine fun x s hw => ⟨standsFor_encode fun _ => rfl, fun hle => ?_, fun hgt => ⟨_, exec_ldB_of_gt hgt x, rfl⟩⟩
  obtain ⟨hhundreds, htens, hones⟩ := State.byteAt_storeDigits hw hle x
  obtain ⟨h100, h10, h1⟩ := toNat_decimalDigits (s.reg x)
  exact ⟨_, exec_ldB_of_le hle x, rfl, hhundreds ▸ h100, htens ▸ h10, hones ▸ h1,
    fun _ ha => s.byteAt_storeDigits_of_out x ha⟩

/-! ### The block transfers (R184, R185, R249) -/

/-- LD [I], Vx changes memory only, or raises after that change; either way memory is the block store's. -/
theorem exec_storeRegs_outcome (x : Nibble) (s : State) : ∃ t, exec (.storeRegs x) s = .next t ∧
    (s.base + x.toNat ≤ 4095 → t = { s with mem := t.mem }) ∧
    (4095 < s.base + x.toNat → Raised { s with mem := t.mem } t .memoryFault (.storeRegs x)) ∧
    ∀ a, t.byteAt a = (s.storeBlock x).byteAt a := by
  refine ⟨_, exec_storeRegs x s, ?_⟩
  split
  · next hle => exact ⟨fun _ => rfl, fun hgt => absurd hle (Nat.not_le.mpr hgt), fun _ => rfl⟩
  · next hgt => exact ⟨fun hle => absurd hle hgt, fun _ => rfl, fun _ => rfl⟩

/-- A block store leaves the addresses beyond memory alone, inside its range or not (R61). -/
theorem State.byteAt_storeBlock_of_gt (s : State) (x : Nibble) {a : Nat} (h : 4095 < a) :
    (s.storeBlock x).byteAt a = s.byteAt a := by
  rw [State.storeBlock_eq]
  exact State.byteAt_blockStore_of_out _ _ _ s (.inr (.inr h))

/-- Settles O38: complete or cut short, the bytes are those of `State.storeBlock`. -/
theorem blockStoreWritesRegistersInOrder : Obligations.BlockStoreWritesRegistersInOrder := by
  intro x s hw
  obtain ⟨t, ht, hcomplete, hcut, hbyte⟩ := exec_storeRegs_outcome x s
  refine ⟨standsFor_encode fun _ => rfl, t, ht, hcomplete, hcut, fun i hi ha => ?_, fun a ha => ?_⟩
  · exact (hbyte _).trans (State.byteAt_storeBlock hw hi ha)
  · rw [hbyte]
    rcases ha with hlo | hhi | hend
    · exact s.byteAt_storeBlock_of_out (.inl hlo)
    · exact s.byteAt_storeBlock_of_out (.inr hhi)
    · exact s.byteAt_storeBlock_of_gt x hend

/-- LD Vx, [I] changes registers only, or raises after that change; either way the registers are the block load's. -/
theorem exec_loadRegs_outcome (x : Nibble) (s : State) : ∃ t, exec (.loadRegs x) s = .next t ∧
    (s.base + x.toNat ≤ 4095 → t = { s with V := t.V }) ∧
    (4095 < s.base + x.toNat → Raised { s with V := t.V } t .memoryFault (.loadRegs x)) ∧
    ∀ r, t.reg r = (s.loadBlock x).reg r := by
  refine ⟨_, exec_loadRegs x s, ?_⟩
  split
  · next hle => exact ⟨fun _ => rfl, fun hgt => absurd hle (Nat.not_le.mpr hgt), fun _ => rfl⟩
  · next hgt => exact ⟨fun hle => absurd hle hgt, fun _ => rfl, fun _ => rfl⟩

/-- A block load puts the byte at `B + i` into `V[i]`, as far as memory reaches (R185). -/
theorem State.reg_loadBlock (s : State) {x i : Nibble} (hi : i.toNat ≤ x.toNat) (ha : s.base + i.toNat ≤ 4095) :
    (s.loadBlock x).reg i = s.byteAt (s.base + i.toNat) := by
  have h := State.reg_blockLoad s.base (x.toNat + 1) 0 i.toNat s (by omega) (by omega) (by omega)
  rwa [Nat.add_zero, Nat.zero_add, BitVec.ofNat_toNat, BitVec.setWidth_eq, ← State.loadBlock_eq] at h

/-- A block load leaves the registers whose byte would lie beyond memory alone (D31). -/
theorem State.reg_loadBlock_of_end (s : State) (x : Nibble) {r : Nibble} (h : 4095 < s.base + r.toNat) :
    (s.loadBlock x).reg r = s.reg r := by
  rw [State.loadBlock_eq]
  exact State.reg_blockLoad_of_out _ _ _ s (by omega) (.inr (.inr h))

/-- Settles O39: complete or cut short, the registers are those of `State.loadBlock`. -/
theorem blockLoadReadsRegistersInOrder : Obligations.BlockLoadReadsRegistersInOrder := by
  intro x s
  obtain ⟨t, ht, hcomplete, hcut, hreg⟩ := exec_loadRegs_outcome x s
  refine ⟨standsFor_encode fun _ => rfl, t, ht, hcomplete, hcut, fun i hi ha => ?_, fun i hi => ?_⟩
  · exact (hreg i).trans (s.reg_loadBlock hi ha)
  · rw [hreg]
    rcases hi with hgt | hend
    · exact s.reg_loadBlock_of_gt hgt
    · exact s.reg_loadBlock_of_end x hend

end Sys2Proof.Machine
end

section
/-! PROOFS. The display (O17, O41 to O43): `DisplayConsumed`, CLS, and the draw of R201 as the inversion of the pixels
under the sprite, once and twice. -/

namespace Sys2Proof.Machine

/-- Settles O17: the event is not the refused one, as the engine runs. -/
theorem displayConsumedClearsChanged : Obligations.DisplayConsumedClearsChanged := fun _ hh =>
  if_neg (Bool.eq_false_iff.mp hh)

/-- Settles O41: the display CLS leaves is the blank one. -/
theorem clearDisplayClearsEveryPixel : Obligations.ClearDisplayClearsEveryPixel :=
  ⟨standsFor_encode fun _ => rfl, fun _ => ⟨_, rfl, rfl, fun r c _ _ => Display.pixel_blank r c⟩⟩

/-! ### One draw (R201) -/

/-- The draw loops of DRW Vx, Vy, n run from `s`. -/
def State.drawing (s : State) (x y n : Nibble) : Drawing :=
  drawRows ((s.reg x).toNat % 64) ((s.reg y).toNat % 32) (s.readBytes s.base n.toNat) ⟨s.display, false, false⟩

/-- The state DRW leaves where its range is inside memory. -/
def State.drawn (s : State) (x y n : Nibble) : State :=
  (s.setVF (s.drawing x y n).collision).setDisplay (s.drawing x y n).display (s.changed || (s.drawing x y n).toggled)

theorem exec_drw_of_le {s : State} {n : Nibble} (h : n.toNat = 0 ∨ s.base + n.toNat - 1 ≤ 4095) (x y : Nibble) :
    exec (.drw x y n) s = .next (s.drawn x y n) :=
  congrArg _ (if_neg (by omega))

theorem exec_drw_of_gt {s : State} {n : Nibble} (h : n.toNat > 0 ∧ 4095 < s.base + n.toNat - 1) (x y : Nibble) :
    exec (.drw x y n) s = .next (s.raiseIn (.drw x y n) .memoryFault) :=
  congrArg _ (if_pos h)

theorem State.readBytes_getElem?_eq_some {s : State} {B n k : Nat} {b : Byte} :
    (s.readBytes B n)[k]? = some b ↔ k < n ∧ s.byteAt (B + k) = b := by
  simp [readBytes, List.getElem?_eq_some_iff]

theorem spriteBits_getElem?_eq_some {b : Byte} {k : Nat} {v : Bool} :
    (spriteBits b)[k]? = some v ↔ k < 8 ∧ b.getLsbD (7 - k) = v := by
  rw [spriteBits_getElem?, Option.ite_none_right_eq_some, Option.some.injEq]

/-- The pixels the loops toggle are those the sprite hits. -/
theorem State.drawing_drew (s : State) (x y n : Nibble) :
    Drew (s.spriteHits x y n) ⟨s.display, false, false⟩ (s.drawing x y n) := by
  refine (drawRows_drew _ _ _ _).congr fun r c => ?_
  simp only [readBytes_getElem?_eq_some, spriteBits_getElem?_eq_some, spriteHits, and_assoc, exists_and_left,
    exists_eq_left']
  constructor
  · rintro ⟨hpy, hr, hpx, hc, hrow, hcol, hbit⟩
    exact ⟨hr, hc, hpy, by omega, hpx, by omega, hbit⟩
  · rintro ⟨hr, hc, hpy, hrow, hpx, hcol, hbit⟩
    exact ⟨hpy, hr, hpx, hc, by omega, by omega, hbit⟩

theorem State.reg_drawn_regVF (s : State) (x y n : Nibble) :
    (s.drawn x y n).reg regVF = flagByte (s.drawing x y n).collision :=
  s.reg_setVF_self _

theorem State.reg_drawn_of_ne (s : State) (x y n : Nibble) {r : Nibble} (h : r ≠ regVF) :
    (s.drawn x y n).reg r = s.reg r :=
  s.reg_setVF_of_ne _ h

theorem State.drawing_collision (s : State) (x y n : Nibble) : (s.drawing x y n).collision = true ↔
    ∃ r c, s.spriteHits x y n r c ∧ s.display.pixel r c = true :=
  (s.drawing_drew x y n).collides.trans (or_iff_right Bool.false_ne_true)

theorem State.drawing_toggled (s : State) (x y n : Nibble) : (s.drawing x y n).toggled = true ↔
    ∃ r c, s.spriteHits x y n r c :=
  (s.drawing_drew x y n).toggles.trans (or_iff_right Bool.false_ne_true)

theorem State.pixel_drawn_of_hit {s : State} {x y n : Nibble} {r c : Nat} (h : s.spriteHits x y n r c) :
    (s.drawn x y n).display.pixel r c = !s.display.pixel r c :=
  (s.drawing_drew x y n).inverted r c h

theorem State.pixel_drawn_of_not_hit {s : State} {x y n : Nibble} {r c : Nat} (h : ¬s.spriteHits x y n r c) :
    (s.drawn x y n).display.pixel r c = s.display.pixel r c :=
  (s.drawing_drew x y n).kept r c h

/-- Settles O42: the range test decides between the fault and the draw, whose loops invert what the sprite hits. -/
theorem drawInvertsThePixelsOfTheClippedSprite : Obligations.DrawInvertsThePixelsOfTheClippedSprite := by
  refine fun x y n s => ⟨standsFor_encode fun _ => rfl, fun hle => ?_, fun hgt => ⟨_, exec_drw_of_gt hgt x y, rfl⟩⟩
  have hVF : (s.drawn x y n).reg 15 = flagByte (s.drawing x y n).collision := s.reg_drawn_regVF x y n
  refine ⟨_, exec_drw_of_le hle x y, rfl, fun r hr => s.reg_drawn_of_ne x y n hr,
    fun _ _ => State.pixel_drawn_of_hit, fun _ _ => State.pixel_drawn_of_not_hit, fun hset => ?_, fun hclear => ?_, ?_⟩
  · rw [hVF, (s.drawing_collision x y n).mpr hset]
    rfl
  · rw [hVF, Bool.eq_false_iff.mpr (mt (s.drawing_collision x y n).mp hclear)]
    rfl
  · exact Bool.or_eq_true_iff.trans (or_congr_right (s.drawing_toggled x y n))

/-! ### Two draws (R202) -/

/-- A draw that overwrites neither of its coordinates leaves the pixels its sprite hits the same. -/
theorem State.spriteHits_drawn (s : State) {x y : Nibble} (hx : x ≠ regVF) (hy : y ≠ regVF) (n : Nibble) :
    (s.drawn x y n).spriteHits x y n = s.spriteHits x y n := by
  funext r c
  simp only [spriteHits, s.reg_drawn_of_ne x y n hx, s.reg_drawn_of_ne x y n hy]
  rfl

theorem State.display_drawn_drawn (s : State) {x y : Nibble} (hx : x ≠ regVF) (hy : y ≠ regVF) (n : Nibble) :
    ((s.drawn x y n).drawn x y n).display = s.display := by
  have hsame := s.spriteHits_drawn hx hy n
  refine Display.ext_pixel fun r c _ _ => ?_
  by_cases hit : s.spriteHits x y n r c
  · rw [pixel_drawn_of_hit (hsame ▸ hit), pixel_drawn_of_hit hit, Bool.not_not]
  · rw [pixel_drawn_of_not_hit (hsame ▸ hit), pixel_drawn_of_not_hit hit]

/-- Settles O43: the second draw inverts the same pixels, and one the first turned on is set under it. -/
theorem drawingTwiceRestoresTheDisplay : Obligations.DrawingTwiceRestoresTheDisplay := by
  intro x y n s hx hy hle
  refine ⟨_, _, exec_drw_of_le hle x y, exec_drw_of_le (s := s.drawn x y n) hle x y, s.display_drawn_drawn hx hy n, ?_⟩
  rintro ⟨r, c, hit, hoff⟩
  have hcollides : ((s.drawn x y n).drawing x y n).collision = true := by
    refine (State.drawing_collision _ x y n).mpr ⟨r, c, s.spriteHits_drawn hx hy n ▸ hit, ?_⟩
    rw [State.pixel_drawn_of_hit hit, hoff, Bool.not_false]
  refine (State.reg_drawn_regVF _ x y n).trans ?_
  rw [hcollides]
  rfl

end Sys2Proof.Machine
end

section
/-! PROOFS. The wait for a key and the timer instructions (O45, O46): each effect is one register write or one record
update, and a poll without a key is a step back. -/

namespace Sys2Proof.Machine

/-- A key number widened to a byte (R222) is the byte of its value. -/
theorem keyByte_eq_ofNat (k : Nibble) : keyByte k = BitVec.ofNat 8 k.toNat :=
  (BitVec.ofNat_toNat 8 k).symm

/-- Settles O45: with a key LD Vx, K is one register write, with none it only steps `pc` back. -/
theorem waitForKeyPollsTheLastKey : Obligations.WaitForKeyPollsTheLastKey := fun x s =>
  ⟨standsFor_encode fun _ => rfl,
    fun k hk => ⟨_, exec_ldVxK_of_some x hk, writesReg_setReg s x (keyByte_eq_ofNat k)⟩, exec_ldVxK_of_none x⟩

/-- Settles O46: reading the timer is one register write, the two timer writes are updates of their own field. -/
theorem timerInstructionsCopyTheTimers : Obligations.TimerInstructionsCopyTheTimers := fun x s =>
  ⟨standsFor_encode fun _ => rfl, standsFor_encode fun _ => rfl, standsFor_encode fun _ => rfl,
    ⟨_, rfl, writesReg_setReg s x rfl⟩, rfl, rfl⟩

end Sys2Proof.Machine
end

section
/-! PROOFS. Fatal conditions and the way out (O14, O15, O47, O51): when an instruction raises and what it records, that
it always answers a next state, the way out of the halted state, and one `Tick`. -/

namespace Sys2Proof.Machine

/-! ### When an instruction raises (R242 to R246) -/

/-- Each condition of `raises` is the one under which the instruction takes its fatal branch. -/
theorem exec_halts_of_raises {i : Instr} {s : State} {c : Cause} (h : raises i s = some c) :
    ∃ t, exec i s = .next t ∧ t.halted = true := by
  cases i with
  | ret =>
    obtain ⟨hempty, -⟩ := Option.ite_none_right_eq_some.mp h
    exact ⟨_, exec_ret_of_nil (List.eq_nil_of_length_eq_zero hempty), rfl⟩
  | call nnn =>
    obtain ⟨hfull, -⟩ := Option.ite_none_right_eq_some.mp h
    exact ⟨_, exec_call_of_le hfull nnn, rfl⟩
  | drw x y n =>
    obtain ⟨hrange, -⟩ := Option.ite_none_right_eq_some.mp h
    exact ⟨_, exec_drw_of_gt hrange x y, rfl⟩
  | ldB x =>
    obtain ⟨hrange, -⟩ := Option.ite_none_right_eq_some.mp h
    exact ⟨_, exec_ldB_of_gt hrange x, rfl⟩
  | storeRegs x =>
    obtain ⟨hrange, -⟩ := Option.ite_none_right_eq_some.mp h
    exact ⟨_, (exec_storeRegs x s).trans (congrArg _ (if_neg (Nat.not_le.mpr hrange))), rfl⟩
  | loadRegs x =>
    obtain ⟨hrange, -⟩ := Option.ite_none_right_eq_some.mp h
    exact ⟨_, (exec_loadRegs x s).trans (congrArg _ (if_neg (Nat.not_le.mpr hrange))), rfl⟩
  | _ => cases h

/-- An instruction leaves the halt and its record alone, or raises the condition `raises` names. -/
theorem Effect.halt_eq_or_raised {s t : State} {i : Instr} (e : Effect s i t) :
    (t.halted = s.halted ∧ t.fault = s.fault) ∨
    ∃ cause, raises i s = some cause ∧ t.halted = true ∧
      t.fault = some ⟨cause, s.pc - 2, some (encode s.cfg.opcodeMap i)⟩ := by
  cases e with
  | raised h => exact .inr ⟨_, h, rfl, rfl⟩
  | storeCutShort h | loadCutShort h => exact .inr ⟨_, if_pos h, rfl, rfl⟩
  | skipped => exact .inl ⟨s.skip_halted _, s.skip_fault _⟩
  | _ => exact .inl ⟨rfl, rfl⟩

/-- Settles O51: the two directions are `Effect.halt_eq_or_raised` and `exec_halts_of_raises`. -/
theorem instructionsRaiseExactlyWhenTheyShould : Obligations.InstructionsRaiseExactlyWhenTheyShould := by
  intro i s t hs hf ht
  rcases (effect_of_exec ht).halt_eq_or_raised with ⟨hhalt, hfault⟩ | ⟨cause, hc, hhalt, hfault⟩
  · have hnone : raises i s = none := by
      refine Option.eq_none_iff_forall_ne_some.mpr fun c hc => ?_
      obtain ⟨u, hu, hhalted⟩ := exec_halts_of_raises hc
      obtain rfl : u = t := Host.Outcome.next.inj (hu.symm.trans ht)
      exact Bool.false_ne_true (hs.symm.trans (hhalt.symm.trans hhalted))
    rw [hnone, hhalt, hfault, hs, hf]
    exact ⟨rfl, rfl⟩
  · rw [hc, hhalt, hfault]
    exact ⟨rfl, rfl⟩

/-- Settles O47, by the shapes of a next state. -/
theorem everyInstructionAnswersANextState : Obligations.EveryInstructionAnswersANextState := by
  intro i s
  obtain ⟨t, ht, -⟩ := exec_next_effect i s
  exact ⟨t, ht⟩

/-! ### The halted state and its way out (R250, R251, R280) -/

/-- A `Reset` that is not refused has an image within bounds and makes `State.reboot`. -/
theorem of_resetEvent_eq_next {s t : State} {image : List Byte} (h : applyEvent (.reset image) s = .next t) :
    image.length ≤ maxImage ∧ t = s.reboot image := by
  simp only [applyEvent, resetEvent] at h
  split at h
  · cases h
  next hlength =>
  split at h
  · cases h
  · exact ⟨Nat.le_of_not_lt hlength, (Host.Outcome.next.inj h).symm⟩

/-- Settles O14: of the scheduled events a halted engine refuses two, ignores `Step` and takes `Reset`; with none
scheduled it is stuck. -/
theorem onlyResetLeavesTheHaltedState : Obligations.OnlyResetLeavesTheHaltedState := by
  intro s t hh ht
  cases hp : s.pending with
  | nil =>
    obtain ⟨-, -, -, hstuck⟩ := aHaltedEngineDoesNothing s hh
    cases (hstuck hp).symm.trans ht
  | cons e rest =>
    rw [step_of_pending_cons hp] at ht
    obtain ⟨hstep, htick, hconsumed, -⟩ := aHaltedEngineDoesNothing { s with pending := rest } hh
    cases e with
    | reset image =>
      obtain ⟨hlength, rfl⟩ := of_resetEvent_eq_next ht
      exact .inl ⟨image, rest, rfl, hlength, rfl, rfl⟩
    | step inputs => exact .inr (Host.Outcome.next.inj ((hstep inputs).symm.trans ht)).symm
    | tick => cases htick.symm.trans ht
    | displayConsumed => cases hconsumed.symm.trans ht

/-! ### One tick (R262) -/

/-- Settles O15: the event is not the refused one, as the engine runs, and each timer counts down. -/
theorem tickCountsTheTimersDown : Obligations.TickCountsTheTimersDown := fun _ hh =>
  ⟨_, if_neg (Bool.eq_false_iff.mp hh), rfl, toNat_countDown _, toNat_countDown _⟩

end Sys2Proof.Machine
end
